-- ==== Sys2Proof/Word.lean ====
section
/-! DEFINITION. The two word types of the codec (00_scope.md R7). -/

namespace Sys2Proof

/-- `u8`: one byte of memory (20_memory.md R41). -/
abbrev Byte := BitVec 8

/-- `u64`: the value encoded and decoded, and the working word (00_scope.md R7, R17). -/
abbrev U64 := BitVec 64

end Sys2Proof
end

