-- ==== Sys2Proof/Config.lean ====
section
/-! DEFINITION. The constants the source fixes (00_scope.md R4), the parameters it leaves open with
their defaults (R5), the model's choices named in the assumption log, and the free values (R16 `ANY_n`). -/

namespace Sys2Proof.Config

/-- `LONG_MIN`, the smallest value that takes the long form (00_scope.md R4). -/
def longMin : Nat := 72057594037927936

/-- `WIN`, the bytes of an `ENC` or `DECF` window (00_scope.md R4). -/
def window : Nat := 9

/-- `TAIL_MODEL` (00_scope.md R5): what is said of the window bytes past the chunk `ENC` wrote. -/
inductive TailModel where
  /-- any value (40_encoder.md R108) -/
  | contract
  /-- what the reference datapath leaves there (40_encoder.md R109) -/
  | reference
  deriving DecidableEq, Repr

/-- `DECF_OUTSIDE_CONTRACT` (00_scope.md R5): what `DECF` does with a chunk that is not valid. -/
inductive OutsideContract where
  /-- refuse (41_decoder_fast.md R131) -/
  | refuse
  /-- answer what the datapath computes (41_decoder_fast.md R140) -/
  | datapath
  deriving DecidableEq, Repr

/-- `ERR_DETAIL` (00_scope.md R5): whether the two causes of `DecodeError` are kept apart. -/
inductive ErrDetail where
  | keptApart
  | folded
  deriving DecidableEq, Repr

/-- The open parameters of 00_scope.md R5.
They are fixed for a machine; State carries them and no step changes them. -/
structure Params where
  aw          : Nat
  tail        : TailModel
  decfOutside : OutsideContract
  errDetail   : ErrDetail
  deriving DecidableEq, Repr

/-- The defaults of 00_scope.md R5. -/
def defaults : Params := ⟨64, .contract, .refuse, .keptApart⟩

/-- What a byte of memory that nothing has written reads as.
DESIGN CHOICE, unsafe (log 6): 10_state.md R33 leaves memory after reset unspecified. -/
def unwritten : Byte := 0

/-- `ANY_8` (00_scope.md R16): the value of draw number n, under no law (log 7). -/
opaque anyByte : Nat → Byte

/-- `ANY_64` (00_scope.md R16): the value of draw number n, under no law (log 7). -/
opaque anyWord : Nat → U64

/-- `ANY_AW` (00_scope.md R16) before it is cut to `AW` bits: the value of draw number n, under no law (log 7). -/
opaque anyAddr : Nat → Nat

end Sys2Proof.Config
end

