-- ==== Sys2Proof/Machine/Bits.lean ====
section
/-! DEFINITION. The bit and byte primitives of 00_scope.md section 5: R9 to R15. -/

namespace Sys2Proof.Machine

/-- Bits shifted out at the top are dropped (00_scope.md R10). -/
def shl64 (a : U64) (n : Nat) : U64 := a <<< n

/-- A logical shift: zeros enter at the top (00_scope.md R10; 90_conflicts.md C3). -/
def shr64 (a : U64) (n : Nat) : U64 := a >>> n

/-- The largest index up to `i` of a set bit, scanning down from bit `i`. -/
def msbBelow (x : U64) : Nat → Nat
  | 0 => 0
  | i + 1 => if x.getLsbD (i + 1) then i + 1 else msbBelow x i

/-- The position of the most significant set bit (00_scope.md R11).
At zero R11 gives no value and lets a model choose; this gives 0, which no rule observes (log 16). -/
def msb64 (x : U64) : Nat := msbBelow x 63

/-- The count of zero bits above the most significant set bit (00_scope.md R11).
At zero R11 gives no value, and this gives 63: DESIGN CHOICE, which no rule observes (log 16). -/
def clz64 (x : U64) : Nat := 63 - msb64 x

/-- The position of the least significant set bit of a byte (00_scope.md R12).
At zero R12 gives no value, and this gives 7; both call sites test for zero first (log 16). -/
def lsb8 (b : Byte) : Nat :=
  if b.getLsbD 0 then 0
  else if b.getLsbD 1 then 1
  else if b.getLsbD 2 then 2
  else if b.getLsbD 3 then 3
  else if b.getLsbD 4 then 4
  else if b.getLsbD 5 then 5
  else if b.getLsbD 6 then 6
  else 7

/-- 00_scope.md R13. -/
def div7 (m : Nat) : Nat := m / 7

/-- `n` one bits at the bottom, all ones at `n = 64` (00_scope.md R14; 70_reset_and_hazards.md R231). -/
def maskLow (n : Nat) : U64 := BitVec.ofNat 64 (2 ^ n - 1)

/-- The low `n` bytes of an integer, least significant first (00_scope.md R15). -/
def leBytes : Nat → Nat → List Byte
  | 0, _ => []
  | n + 1, w => BitVec.ofNat 8 w :: leBytes n (w / 256)

/-- The integer a list of bytes stands for, least significant first (00_scope.md R15). -/
def leInt : List Byte → Nat
  | [] => 0
  | b :: bs => b.toNat + 256 * leInt bs

end Sys2Proof.Machine
end

