-- ==== Sys2Proof/Syntax.lean ====
section
/-! DEFINITION. The instructions: one constructor per row of spec/opcode_table.json. -/

namespace Sys2Proof

/-- The three operations (30_encoding.md R82) and the nine chunk forms (30_encoding.md R72).
An address is a natural number (00_scope.md R7); WellFormed bounds it by `2^AW`.
A chunk form carries the payload bits of the chunk (30_encoding.md R73, R75). -/
inductive Instr where
  /-- `ENC value, dest` (40_encoder.md R113) -/
  | enc (value : U64) (dest : Nat)
  /-- `DECF src` (41_decoder_fast.md R142) -/
  | decf (src : Nat)
  /-- `DECS begin, end` (42_decoder_safe.md R160) -/
  | decs (begin_ end_ : Nat)
  /-- short form of 1 byte -/
  | s1 (v : BitVec 7)
  /-- short form of 2 bytes -/
  | s2 (v : BitVec 14)
  /-- short form of 3 bytes -/
  | s3 (v : BitVec 21)
  /-- short form of 4 bytes -/
  | s4 (v : BitVec 28)
  /-- short form of 5 bytes -/
  | s5 (v : BitVec 35)
  /-- short form of 6 bytes -/
  | s6 (v : BitVec 42)
  /-- short form of 7 bytes -/
  | s7 (v : BitVec 49)
  /-- short form of 8 bytes -/
  | s8 (v : BitVec 56)
  /-- long form, 9 bytes (30_encoding.md R75) -/
  | l9 (v : BitVec 64)
  deriving DecidableEq, Repr

end Sys2Proof
end

