-- ==== Sys2Proof/WellFormed.lean ====
section
/-! DEFINITION. When an instruction can be written at all: its address fields fit in `AW` bits. -/

namespace Sys2Proof

/-- Every address operand is an integer in `0 .. 2^AW - 1` (00_scope.md R7, 10_state.md R26).
A chunk form has no such field, and every payload is a well-formed byte sequence (30_encoding.md R78, R79). -/
def wellFormed (aw : Nat) : Instr → Bool
  | .enc _ dest => decide (dest < 2 ^ aw)
  | .decf src => decide (src < 2 ^ aw)
  | .decs begin_ end_ => decide (begin_ < 2 ^ aw) && decide (end_ < 2 ^ aw)
  | .s1 _ => true
  | .s2 _ => true
  | .s3 _ => true
  | .s4 _ => true
  | .s5 _ => true
  | .s6 _ => true
  | .s7 _ => true
  | .s8 _ => true
  | .l9 _ => true

end Sys2Proof
end

