-- ==== Sys2Proof/Decode.lean ====
section
/-! DEFINITION. Decoding and encoding: chunks (30_encoding.md R72 to R75, R85, R86) and command words
(30_encoding.md R82, R83). -/

namespace Sys2Proof

open Sys2Proof.Machine (leBytes leInt)

/-! ## Decoding -/

/-- Why a decoder gives no instruction. -/
inductive Reject where
  /-- the select code `11` (30_encoding.md R82) -/
  | opReserved
  /-- no byte at all, so no declared length -/
  | noByte
  /-- fewer bytes than the first byte declares -/
  | cutShort
  deriving DecidableEq, Repr

/-- One row of the first-byte map (30_encoding.md R72): a byte is of the form when `byte & mask = pattern`. -/
structure FormRow where
  mask    : Byte
  pattern : Byte
  len     : Nat
  deriving DecidableEq, Repr

/-- The first-byte map of 30_encoding.md R72. -/
def formRows : List FormRow :=
  [⟨0x01, 0x01, 1⟩, ⟨0x03, 0x02, 2⟩, ⟨0x07, 0x04, 3⟩, ⟨0x0F, 0x08, 4⟩, ⟨0x1F, 0x10, 5⟩,
   ⟨0x3F, 0x20, 6⟩, ⟨0x7F, 0x40, 7⟩, ⟨0xFF, 0x80, 8⟩, ⟨0xFF, 0x00, 9⟩]

/-- The byte is of this row's form. -/
def FormRow.takes (r : FormRow) (b : Byte) : Bool := b &&& r.mask == r.pattern

/-- The chunk length the first byte declares (30_encoding.md R72).
The rows cover every byte, so the last case is never taken. -/
def declaredLength (b : Byte) : Nat :=
  match formRows.find? (fun r => r.takes b) with
  | some r => r.len
  | none => 9

/-- The chunk form of length `L` whose bytes, read as one little-endian integer, are `w`.
The value stands above the `k` zero bits and the marker bit, `k + 1 = L` (30_encoding.md R73, R86).
In the long form it stands above the sentinel byte (R75). -/
def chunkOf (L w : Nat) : Instr :=
  match L with
  | 1 => .s1 (BitVec.ofNat 7 (w / 2 ^ 1))
  | 2 => .s2 (BitVec.ofNat 14 (w / 2 ^ 2))
  | 3 => .s3 (BitVec.ofNat 21 (w / 2 ^ 3))
  | 4 => .s4 (BitVec.ofNat 28 (w / 2 ^ 4))
  | 5 => .s5 (BitVec.ofNat 35 (w / 2 ^ 5))
  | 6 => .s6 (BitVec.ofNat 42 (w / 2 ^ 6))
  | 7 => .s7 (BitVec.ofNat 49 (w / 2 ^ 7))
  | 8 => .s8 (BitVec.ofNat 56 (w / 2 ^ 8))
  | _ => .l9 (BitVec.ofNat 64 (w / 2 ^ 8))

/-- The chunk at the front of a byte stream, and the bytes after it (30_encoding.md R85). -/
def decodeChunk : List Byte → Except Reject (Instr × List Byte)
  | [] => .error .noByte
  | b :: rest =>
    let L := declaredLength b
    if (b :: rest).length < L then .error .cutShort
    else .ok (chunkOf L (leInt ((b :: rest).take L)), (b :: rest).drop L)

/-- The operation a command word selects (30_encoding.md R82).
The select code stands in bits 1..0 and the operand fields above it in the order of R83.
The packing is a DESIGN CHOICE (log 2): R83 fixes none. -/
def decodeCommand (aw w : Nat) : Except Reject Instr :=
  match w % 4 with
  | 0 => .ok (.enc (BitVec.ofNat 64 (w / 4)) (w / 4 / 2 ^ 64 % 2 ^ aw))
  | 1 => .ok (.decf (w / 4 % 2 ^ aw))
  | 2 => .ok (.decs (w / 4 % 2 ^ aw) (w / 4 / 2 ^ aw % 2 ^ aw))
  | _ => .error .opReserved

/-- The two places an instruction can stand: the command port, and the byte stream at the cursor. -/
inductive Code where
  | command (w : Nat)
  | chunk (bytes : List Byte)
  deriving DecidableEq, Repr

/-- Total on every word and every bytes. -/
def decode (aw : Nat) : Code → Except Reject Instr
  | .command w => decodeCommand aw w
  | .chunk bytes => (decodeChunk bytes).map Prod.fst

/-- Where a word of spec/opcode_table.json stands.
The table numbers the select code of an operation and the first byte of a chunk from the same bit 0,
so 0, 1 and 2 of one byte stand in both spaces; they are read as the operation (DESIGN CHOICE, log 4).
Every other word is the chunk whose bytes it gives, first byte lowest. -/
def tableCode (nbits w : Nat) : Code :=
  if nbits ≤ 8 ∧ w < 3 then .command w else .chunk (leBytes 9 w)

/-- The instruction of a word numbered as spec/opcode_table.json numbers it (the host's question). -/
def decodeTableWord (nbits w : Nat) : Option Instr :=
  match decode Config.defaults.aw (tableCode nbits w) with
  | .ok i => some i
  | .error _ => none

/-! ## Encoding -/

/-- The `k + 1` bytes of the short form with parameter `k` and value `v` (30_encoding.md R73). -/
def shortChunk (k v : Nat) : List Byte := leBytes (k + 1) ((2 * v + 1) * 2 ^ k)

/-- The bytes of a chunk (30_encoding.md R73, R75); an operation has none. -/
def encodeChunk : Instr → List Byte
  | .enc _ _ => []
  | .decf _ => []
  | .decs _ _ => []
  | .s1 v => shortChunk 0 v.toNat
  | .s2 v => shortChunk 1 v.toNat
  | .s3 v => shortChunk 2 v.toNat
  | .s4 v => shortChunk 3 v.toNat
  | .s5 v => shortChunk 4 v.toNat
  | .s6 v => shortChunk 5 v.toNat
  | .s7 v => shortChunk 6 v.toNat
  | .s8 v => shortChunk 7 v.toNat
  | .l9 v => 0x00 :: leBytes 8 v.toNat

/-- Where an instruction stands and how it is written there (30_encoding.md R73, R75, R82, R83). -/
def encode (aw : Nat) : Instr → Code
  | .enc value dest => .command (0 + 4 * (value.toNat + 2 ^ 64 * dest))
  | .decf src => .command (1 + 4 * src)
  | .decs begin_ end_ => .command (2 + 4 * (begin_ + 2 ^ aw * end_))
  | .s1 v => .chunk (encodeChunk (.s1 v))
  | .s2 v => .chunk (encodeChunk (.s2 v))
  | .s3 v => .chunk (encodeChunk (.s3 v))
  | .s4 v => .chunk (encodeChunk (.s4 v))
  | .s5 v => .chunk (encodeChunk (.s5 v))
  | .s6 v => .chunk (encodeChunk (.s6 v))
  | .s7 v => .chunk (encodeChunk (.s7 v))
  | .s8 v => .chunk (encodeChunk (.s8 v))
  | .l9 v => .chunk (encodeChunk (.l9 v))

/-! ## Chunks as the wire format describes them -/

/-- The instruction is a chunk form. -/
def isChunk : Instr → Bool
  | .enc _ _ => false
  | .decf _ => false
  | .decs _ _ => false
  | .s1 _ => true
  | .s2 _ => true
  | .s3 _ => true
  | .s4 _ => true
  | .s5 _ => true
  | .s6 _ => true
  | .s7 _ => true
  | .s8 _ => true
  | .l9 _ => true

/-- The length `L` of a chunk form in bytes (30_encoding.md R72); 0 for an operation. -/
def chunkLength : Instr → Nat
  | .enc _ _ => 0
  | .decf _ => 0
  | .decs _ _ => 0
  | .s1 _ => 1
  | .s2 _ => 2
  | .s3 _ => 3
  | .s4 _ => 4
  | .s5 _ => 5
  | .s6 _ => 6
  | .s7 _ => 7
  | .s8 _ => 8
  | .l9 _ => 9

/-- The value `V` of a chunk, zero-extended to 64 bits (30_encoding.md R86); 0 for an operation. -/
def chunkValue : Instr → U64
  | .enc _ _ => 0
  | .decf _ => 0
  | .decs _ _ => 0
  | .s1 v => v.setWidth 64
  | .s2 v => v.setWidth 64
  | .s3 v => v.setWidth 64
  | .s4 v => v.setWidth 64
  | .s5 v => v.setWidth 64
  | .s6 v => v.setWidth 64
  | .s7 v => v.setWidth 64
  | .s8 v => v.setWidth 64
  | .l9 v => v

/-- The smallest value of the class of a chunk of length `L` (30_encoding.md R76, R77). -/
def classMin (L : Nat) : Nat := if L ≤ 1 then 0 else 2 ^ (7 * (L - 1))

/-- A chunk of length `L` and value `V` is canonical (30_encoding.md R77). -/
def canonical (L : Nat) (V : U64) : Bool := decide (classMin L ≤ V.toNat)

/-- The form a value takes: the class table of 30_encoding.md R76. -/
def formFor (v : U64) : Instr :=
  if v.toNat < 2 ^ 7 then .s1 (v.setWidth 7)
  else if v.toNat < 2 ^ 14 then .s2 (v.setWidth 14)
  else if v.toNat < 2 ^ 21 then .s3 (v.setWidth 21)
  else if v.toNat < 2 ^ 28 then .s4 (v.setWidth 28)
  else if v.toNat < 2 ^ 35 then .s5 (v.setWidth 35)
  else if v.toNat < 2 ^ 42 then .s6 (v.setWidth 42)
  else if v.toNat < 2 ^ 49 then .s7 (v.setWidth 49)
  else if v.toNat < 2 ^ 56 then .s8 (v.setWidth 56)
  else .l9 v

/-- `EncBytes(v)`, the canonical chunk of a value (30_encoding.md R77; one chunk per value, none of them the beginning
of another, 40_encoder.md R114 b). -/
def encBytes (v : U64) : List Byte := encodeChunk (formFor v)

end Sys2Proof
end

