-- ==== Sys2Proof/Machine/State.lean ====
section
/-! DEFINITION. The machine's state as plain data, the reasons a step can stop, and the state after reset. -/

namespace Sys2Proof.Machine

/-- A range of addresses `base .. base + size - 1` (20_memory.md R54). -/
structure Region where
  base : Nat
  size : Nat
  deriving DecidableEq, Repr

/-- A window another agent uses, in no order with the next operation, while that operation runs
(20_memory.md R57; log 11).
`writes` says whether that agent may write it, as an `ENC` does. -/
structure Claim where
  window : Region
  writes : Bool
  deriving DecidableEq, Repr

/-- Which decoder the caller walks its stream with (45_stream.md R176, R177). -/
inductive DecoderKind where
  | fast
  | safe
  deriving DecidableEq, Repr

/-- The caller's decode cursor and the end of its window (10_state.md R29; 45_stream.md R172; log 3).
Both are addresses of `AW` bits (00_scope.md R5), but for a cursor moved past the last address (log 17). -/
structure Reader where
  decoder : DecoderKind
  begin_  : Nat
  end_    : Nat
  walking : Bool
  deriving DecidableEq, Repr

/-- The `status` field of `DECS` (10_state.md R27; 60_exceptions.md R191). -/
inductive Status where
  /-- 0 -/
  | ok
  /-- 1, insufficient bytes for the declared length -/
  | eTruncated
  /-- 2, a non-canonical sentinel encoding -/
  | eNoncanonical
  /-- the one failure of a machine that folds the two causes (`ERR_DETAIL`, log 9) -/
  | eFolded
  deriving DecidableEq, Repr

/-- The result fields of one completed operation (10_state.md R27). -/
inductive Result where
  | enc (len : Nat)
  | decf (valueOut : U64) (len : Nat)
  | decs (status : Status) (valueOut : U64) (newBegin : Nat)
  deriving DecidableEq, Repr

/-- The caller's memory (20_memory.md R40, R41).
`cells` holds the bytes that differ from an unlisted one; `free` holds, by address, the number of the draw
of each byte whose value the spec leaves open (00_scope.md R16 `ANY_8`; log 6, log 7). -/
structure Memory where
  cells : List Host.Cell
  free  : List (Nat × Nat)
  deriving DecidableEq, Repr

/-- The state; INVENTORY.md lists the rule of each field. -/
structure State where
  cfg          : Config.Params
  mem          : Memory
  readable     : List Region
  writable     : List Region
  devices      : List Region
  busy         : List Claim
  port         : List Nat
  reader       : Reader
  resetPending : Bool
  result       : Option Result
  draws        : Nat
  deriving DecidableEq, Repr

/-- The spec has no trap and nothing else that stops the machine (60_exceptions.md R190), so there is no fault. -/
inductive Fault where
  deriving DecidableEq, Repr

/-- Why an invocation has no meaning: the closed list of 60_exceptions.md R195, and device memory (20_memory.md R53).
Every one is safe: nothing can be proved of what follows. -/
inductive Refusal where
  /-- an arm of exec without a meaning; raised by no arm of this model; safe -/
  | notModelled (mnemonic : String)
  /-- `ENC_WINDOW`: raised by `ENC` when `dest .. dest+8` is not wholly writable; safe -/
  | encWindow
  /-- `DECF_WINDOW`: raised by `DECF`, and by a chunk read in a `DECF` walk, when the 9 bytes are not wholly readable; safe -/
  | decfWindow
  /-- `DECF_CHUNK`: raised by `DECF`, and by a chunk read in a `DECF` walk, on a chunk that is not valid
  unless `DECF_OUTSIDE_CONTRACT = datapath`; safe -/
  | decfChunk
  /-- `DECS_WINDOW`: raised by `DECS`, and by a chunk read in a `DECS` walk, when `begin > end` or the window is not readable; safe -/
  | decsWindow
  /-- `ALIASING`: raised by every operation whose window conflicts with one another agent uses; safe -/
  | aliasing
  /-- `OP_RESERVED`: raised by fetching a command word whose select code is `11`; safe -/
  | opReserved
  /-- raised by every operation whose window touches device memory (20_memory.md R53; log 13); safe -/
  | deviceWindow
  deriving DecidableEq, Repr

/-- Memory with nothing listed (10_state.md R33; log 6). -/
def Memory.empty : Memory := ⟨[], []⟩

/-- The machine right after reset.
The block itself has nothing to reset (10_state.md R32; 70_reset_and_hazards.md R220).
The caller's fields are the choices of log 5; the parameters are the defaults of 00_scope.md R5. -/
def State.reset : State where
  cfg          := Config.defaults
  mem          := Memory.empty
  readable     := [⟨0, 18446744073709551616⟩]
  writable     := [⟨0, 18446744073709551616⟩]
  devices      := []
  busy         := []
  port         := []
  reader       := ⟨.safe, 0, 0, false⟩
  resetPending := false
  result       := none
  draws        := 0

end Sys2Proof.Machine
end

