-- ==== Sys2Proof/Machine/Flags.lean ====
section
/-! DEFINITION. The codec has no flags (10_state.md R23).
What stands in their place is the `status` field of `DECS` (60_exceptions.md R191). -/

namespace Sys2Proof.Machine

/-- The cause as the machine reports it: folded into one when `ERR_DETAIL` says so (00_scope.md R5; log 9). -/
def reportCause (d : Config.ErrDetail) (cause : Status) : Status :=
  match d with
  | .keptApart => cause
  | .folded => .eFolded

/-- The 2-bit code of a status (60_exceptions.md R191); the folded failure is given none. -/
def Status.code : Status → Option (BitVec 2)
  | .ok => some 0
  | .eTruncated => some 1
  | .eNoncanonical => some 2
  | .eFolded => none

/-- Success or failure: what a claim about every implementation may use (60_exceptions.md R191). -/
def Status.succeeded : Status → Bool
  | .ok => true
  | .eTruncated => false
  | .eNoncanonical => false
  | .eFolded => false

end Sys2Proof.Machine
end

