-- ==== Sys2Proof/Machine/Operands.lean ====
section
/-! DEFINITION. The windows the operands name and their admission (20_memory.md R47 to R49, R51, R54 to R57).
The one operand form is an address plus a constant in `0 .. 8` (20_memory.md section 3). -/

namespace Sys2Proof.Machine

/-- The first address past a region. -/
def Region.past (r : Region) : Nat := r.base + r.size

/-- Every address of `a .. e-1` lies in some region of the list. -/
def covers : List Region → Nat → Nat → Bool
  | [], a, e => decide (e ≤ a)
  | r :: rs, a, e =>
    decide (e ≤ a) || (covers rs a (min e r.base) && covers rs (max a r.past) e)

/-- All of `a .. e-1` lies in the regions and in the address space (20_memory.md R51, R55).
An empty window has no byte to grant, wherever it stands; `admitDecs` bounds its address. -/
def grants (s : State) (rs : List Region) (a e : Nat) : Bool :=
  decide (e ≤ a) || (decide (e ≤ 2 ^ s.cfg.aw) && covers rs a e)

/-- The window `a .. e-1` and a region share a byte (20_memory.md R57). -/
def sharesByte (a e : Nat) (r : Region) : Bool := decide (max a r.base < min e r.past)

/-- The window touches device memory (20_memory.md R53). -/
def touchesDevice (s : State) (a e : Nat) : Bool := s.devices.any (sharesByte a e)

/-- Another agent's window conflicts with `a .. e-1`: a byte is shared and one of the two writes (20_memory.md R57 b). -/
def conflicts (s : State) (writes : Bool) (a e : Nat) : Bool :=
  s.busy.any (fun c => (writes || c.writes) && sharesByte a e c.window)

/-- Admission of a window (20_memory.md R51).
The order of the three checks is a DESIGN CHOICE (log 15). -/
def admission (s : State) (outside : Refusal) (granted writes : Bool) (a e : Nat) : Option Refusal :=
  if granted = false then some outside
  else if touchesDevice s a e then some .deviceWindow
  else if conflicts s writes a e then some .aliasing
  else none

/-- `ENC`: `dest .. dest+8` writable (40_encoder.md R101).
So `dest` and the 8 after it are addresses of `AW` bits (00_scope.md R7). -/
def admitEnc (s : State) (dest : Nat) : Option Refusal :=
  admission s .encWindow (grants s s.writable dest (dest + 9)) true dest (dest + 9)

/-- `DECF`: `src .. src+8` readable (41_decoder_fast.md R131 a).
So `src` and the 8 after it are addresses of `AW` bits (00_scope.md R7). -/
def admitDecf (s : State) (src : Nat) : Option Refusal :=
  admission s .decfWindow (grants s s.readable src (src + 9)) false src (src + 9)

/-- `begin` and `end` are in order, and are addresses: integers of `AW` bits (00_scope.md R7, R17; 10_state.md R26;
42_decoder_safe.md R151).
Operands that are no addresses are refused with those out of order (log 1). -/
def boundsLegal (s : State) (begin_ end_ : Nat) : Bool := decide (begin_ ≤ end_) && decide (end_ < 2 ^ s.cfg.aw)

/-- `DECS`: `begin <= end`, both addresses, and `begin .. end-1` readable (42_decoder_safe.md R151). -/
def admitDecs (s : State) (begin_ end_ : Nat) : Option Refusal :=
  admission s .decsWindow (boundsLegal s begin_ end_ && grants s s.readable begin_ end_) false begin_ end_

end Sys2Proof.Machine
end

