-- ==== Sys2Proof/Machine/Ops.lean ====
section
/-! DEFINITION. The named operations over memory and over the state's fields, the guard of admission, and the one
shared in-band failure (the codec takes no exception, 60_exceptions.md R190, R197). -/

namespace Sys2Proof.Machine

/-! ## Lists of address and datum, addresses rising -/

/-- What the list holds at an address. -/
def lookupAt {α : Type} : List (Nat × α) → Nat → Option α
  | [], _ => none
  | (k, x) :: t, a => if a = k then some x else lookupAt t a

/-- Put a datum at an address, keeping addresses rising. -/
def putAt {α : Type} : List (Nat × α) → Nat → α → List (Nat × α)
  | [], a, y => [(a, y)]
  | (k, x) :: t, a, y =>
    if a < k then (a, y) :: (k, x) :: t
    else if a = k then (a, y) :: t
    else (k, x) :: putAt t a y

/-- Take an address out of the list. -/
def dropAt {α : Type} : List (Nat × α) → Nat → List (Nat × α)
  | [], _ => []
  | (k, x) :: t, a => if a = k then dropAt t a else (k, x) :: dropAt t a

/-- Addresses strictly rising. -/
def rising {α : Type} : List (Nat × α) → Bool
  | [] => true
  | (k, _) :: t => t.all (fun p => decide (k < p.1)) && rising t

/-! ## Memory -/

/-- The canonical form: both lists rising, no cell equal to an unlisted byte, no address in both. -/
def Memory.wf (m : Memory) : Bool :=
  rising m.cells && rising m.free && m.cells.all (fun p => p.2 != Config.unwritten) &&
    m.cells.all (fun p => (lookupAt m.free p.1).isNone)

/-- `M[a]` (00_scope.md R16). -/
def Memory.readByte (m : Memory) (a : Nat) : Byte :=
  match lookupAt m.free a with
  | some n => Config.anyByte n
  | none => (lookupAt m.cells a).getD Config.unwritten

/-- `M[a] <- b`. -/
def Memory.writeByte (m : Memory) (a : Nat) (b : Byte) : Memory :=
  ⟨if b = Config.unwritten then dropAt m.cells a else putAt m.cells a b, dropAt m.free a⟩

/-- `M[a] <- ANY_8`, with draw number `n` (00_scope.md R16; log 7). -/
def Memory.writeAny (m : Memory) (a n : Nat) : Memory :=
  ⟨dropAt m.cells a, putAt m.free a n⟩

/-- The bytes from `a` upward, lowest address first. -/
def Memory.readBytes (m : Memory) (a : Nat) : Nat → List Byte
  | 0 => []
  | n + 1 => m.readByte a :: m.readBytes (a + 1) n

/-- Store bytes from `a` upward. -/
def Memory.writeBytes (m : Memory) (a : Nat) : List Byte → Memory
  | [] => m
  | b :: bs => (m.writeByte a b).writeBytes (a + 1) bs

/-- Store `ANY_8` in `n` bytes from `a` upward, with draws numbered from `d`. -/
def Memory.writeAnys (m : Memory) (a : Nat) : Nat → Nat → Memory
  | 0, _ => m
  | n + 1, d => (m.writeAny a d).writeAnys (a + 1) n (d + 1)

/-- `MemRead(addr, n)` (20_memory.md R42), zero-extended. -/
def Memory.memRead (m : Memory) (addr n : Nat) : U64 := BitVec.ofNat 64 (leInt (m.readBytes addr n))

/-- `MemWrite(addr, n, v)` (20_memory.md R43). -/
def Memory.memWrite (m : Memory) (addr n : Nat) (v : U64) : Memory := m.writeBytes addr (leBytes n v.toNat)

/-! ## Fields of the state -/

/-- Replace the memory. -/
def State.withMem (s : State) (m : Memory) : State := { s with mem := m }

/-- Deliver the result fields of a completed operation (10_state.md R27). -/
def State.withResult (s : State) (r : Option Result) : State := { s with result := r }

/-- Advance the draw counter past `n` draws (log 7). -/
def State.skipDraws (s : State) (n : Nat) : State := { s with draws := s.draws + n }

/-- Replace the caller's cursor and window. -/
def State.withReader (s : State) (r : Reader) : State := { s with reader := r }

/-- Replace the queue of the command port. -/
def State.withPort (s : State) (p : List Nat) : State := { s with port := p }

/-- Drive the reset line (70_reset_and_hazards.md R221). -/
def State.withResetPending (s : State) (b : Bool) : State := { s with resetPending := b }

/-- The caller moves its cursor to the next chunk (45_stream.md R172). -/
def State.moveCursor (s : State) (a : Nat) : State := s.withReader { s.reader with begin_ := a }

/-- The caller stops its walk and keeps its cursor (45_stream.md R172, R177). -/
def State.stopWalk (s : State) : State := s.withReader { s.reader with walking := false }

/-- Store `ANY_8` in `n` bytes from `a` upward, each a fresh draw. -/
def State.spoil (s : State) (a n : Nat) : State := (s.withMem (s.mem.writeAnys a n s.draws)).skipDraws n

/-! ## Outcomes -/

/-- An invocation that is not admitted is refused (60_exceptions.md R195). -/
def guarded (r : Option Refusal) (k : Host.Outcome State Fault Refusal) : Host.Outcome State Fault Refusal :=
  match r with
  | some why => .refused why
  | none => k

/-- `return Err(cause)` of `DECS`: the one failure of the codec, in band.
The cause is reported, `value_out` and `new_begin` are free, nothing else changes (42_decoder_safe.md R157;
60_exceptions.md R190, R193, R197). -/
def failDecs (s : State) (cause : Status) : State :=
  (s.withResult (some (.decs (reportCause s.cfg.errDetail cause) (Config.anyWord s.draws)
    (Config.anyAddr (s.draws + 1) % 2 ^ s.cfg.aw)))).skipDraws 2

end Sys2Proof.Machine
end

