-- ==== Sys2Proof/Machine/FastDecoder.lean ====
section
/-! DEFINITION. `DECF` (41_decoder_fast.md). -/

namespace Sys2Proof.Machine

/-- The value of a short form of parameter `k`: load, mask, logical shift (41_decoder_fast.md R135 to R137). -/
def shortValue (m : Memory) (src k : Nat) : U64 :=
  shr64 (m.memRead src 8 &&& maskLow (8 * (k + 1))) (k + 1)

/-- The value the datapath computes (41_decoder_fast.md R132 to R137). -/
def decfValue (m : Memory) (src : Nat) : U64 :=
  if m.readByte src = 0x00 then m.memRead (src + 1) 8 else shortValue m src (lsb8 (m.readByte src))

/-- The length the datapath reports (41_decoder_fast.md R133, R138). -/
def decfLen (m : Memory) (src : Nat) : Nat :=
  if m.readByte src = 0x00 then 9 else lsb8 (m.readByte src) + 1

/-- `ValidChunkAt` (41_decoder_fast.md R142). -/
def validChunkAt (m : Memory) (a : Nat) : Bool :=
  if m.readByte a = 0x00 then decide (Config.longMin ≤ (m.memRead (a + 1) 8).toNat)
  else if lsb8 (m.readByte a) = 0 then true
  else decide (2 ^ (7 * lsb8 (m.readByte a)) ≤ (shortValue m a (lsb8 (m.readByte a))).toNat)

/-- What becomes of a chunk that is not valid (41_decoder_fast.md R131 b, R140). -/
def decfContract (s : State) (valid : Bool) : Option Refusal :=
  match s.cfg.decfOutside with
  | .refuse => if valid then none else some .decfChunk
  | .datapath => none

/-- `DECF src -> value_out, len` (41_decoder_fast.md R142). -/
def execDecf (src : Nat) (s : State) : Host.Outcome State Fault Refusal :=
  guarded (admitDecf s src)
    (guarded (decfContract s (validChunkAt s.mem src))
      (.next (s.withResult (some (.decf (decfValue s.mem src) (decfLen s.mem src))))))

end Sys2Proof.Machine
end

