-- ==== Sys2Proof/Machine/SafeDecoder.lean ====
section
/-! DEFINITION. `DECS` (42_decoder_safe.md). -/

namespace Sys2Proof.Machine

/-- `return Ok(value_out, new_begin)` (42_decoder_safe.md R160). -/
def succeedDecs (s : State) (value : U64) (newBegin : Nat) : State :=
  s.withResult (some (.decs .ok value newBegin))

/-- The long-form branch (42_decoder_safe.md R154). -/
def decsLong (s : State) (begin_ avail : Nat) : State :=
  if avail < 9 then failDecs s .eTruncated
  else if (s.mem.memRead (begin_ + 1) 8).toNat < Config.longMin then failDecs s .eNoncanonical
  else succeedDecs s (s.mem.memRead (begin_ + 1) 8) (begin_ + 9)

/-- The short-form branch: an exact copy of `L` bytes, mask, logical shift (42_decoder_safe.md R155). -/
def decsShort (s : State) (begin_ avail L : Nat) : State :=
  if avail < L then failDecs s .eTruncated
  else succeedDecs s (shr64 (s.mem.memRead begin_ L &&& maskLow (8 * L)) L) (begin_ + L)

/-- The checks in the order of 42_decoder_safe.md R161. -/
def decsBody (s : State) (begin_ avail : Nat) : State :=
  if avail = 0 then failDecs s .eTruncated
  else if s.mem.readByte begin_ = 0x00 then decsLong s begin_ avail
  else decsShort s begin_ avail (lsb8 (s.mem.readByte begin_) + 1)

/-- `DECS begin, end -> OK value_out, new_begin | ERR cause` (42_decoder_safe.md R160). -/
def execDecs (begin_ end_ : Nat) (s : State) : Host.Outcome State Fault Refusal :=
  guarded (admitDecs s begin_ end_) (.next (decsBody s begin_ (end_ - begin_)))

end Sys2Proof.Machine
end

