-- ==== Sys2Proof/Machine/Chunk.lean ====
section
/-! DEFINITION. The chunk forms `S1` .. `S8` and `L9`: what reading one at the caller's cursor does in a walk
(30_encoding.md R72, R78, R85, R86; 45_stream.md R172, R176, R177; log 3). -/

namespace Sys2Proof.Machine

/-- A chunk of length `L` and value `V` read in a `DECS` walk (45_stream.md R177; 42_decoder_safe.md R161).
On success the cursor moves past the chunk; on failure the walk stops and the cursor stays (45_stream.md R172). -/
def safeRead (L : Nat) (V : U64) (s : State) : State :=
  if s.reader.end_ - s.reader.begin_ < L then failDecs s.stopWalk .eTruncated
  else if L = 9 ∧ canonical L V = false then failDecs s.stopWalk .eNoncanonical
  else (succeedDecs s V (s.reader.begin_ + L)).moveCursor (s.reader.begin_ + L)

/-- A chunk of length `L` and value `V` read in a `DECF` walk (45_stream.md R176; 41_decoder_fast.md R131, R138). -/
def fastRead (L : Nat) (V : U64) (s : State) : State :=
  (s.withResult (some (.decf V L))).moveCursor (s.reader.begin_ + L)

/-- Reading the chunk at the cursor with the walk's decoder (30_encoding.md R78, R86). -/
def readChunk (L : Nat) (V : U64) (s : State) : Host.Outcome State Fault Refusal :=
  match s.reader.decoder with
  | .safe => guarded (admitDecs s s.reader.begin_ s.reader.end_) (.next (safeRead L V s))
  | .fast =>
    guarded (admitDecf s s.reader.begin_)
      (guarded (decfContract s (canonical L V)) (.next (fastRead L V s)))

/-- `S1` (30_encoding.md R73, R74, R86). -/
def execS1 (v : BitVec 7) (s : State) : Host.Outcome State Fault Refusal := readChunk 1 (v.setWidth 64) s

/-- `S2` (30_encoding.md R73, R74, R86). -/
def execS2 (v : BitVec 14) (s : State) : Host.Outcome State Fault Refusal := readChunk 2 (v.setWidth 64) s

/-- `S3` (30_encoding.md R73, R74, R86). -/
def execS3 (v : BitVec 21) (s : State) : Host.Outcome State Fault Refusal := readChunk 3 (v.setWidth 64) s

/-- `S4` (30_encoding.md R73, R74, R86). -/
def execS4 (v : BitVec 28) (s : State) : Host.Outcome State Fault Refusal := readChunk 4 (v.setWidth 64) s

/-- `S5` (30_encoding.md R73, R74, R86). -/
def execS5 (v : BitVec 35) (s : State) : Host.Outcome State Fault Refusal := readChunk 5 (v.setWidth 64) s

/-- `S6` (30_encoding.md R73, R74, R86). -/
def execS6 (v : BitVec 42) (s : State) : Host.Outcome State Fault Refusal := readChunk 6 (v.setWidth 64) s

/-- `S7` (30_encoding.md R73, R74, R86). -/
def execS7 (v : BitVec 49) (s : State) : Host.Outcome State Fault Refusal := readChunk 7 (v.setWidth 64) s

/-- `S8` (30_encoding.md R73, R74, R86). -/
def execS8 (v : BitVec 56) (s : State) : Host.Outcome State Fault Refusal := readChunk 8 (v.setWidth 64) s

/-- `L9` (30_encoding.md R75, R78, R86). -/
def execL9 (v : BitVec 64) (s : State) : Host.Outcome State Fault Refusal := readChunk 9 v s

end Sys2Proof.Machine
end

