-- ==== Sys2Proof/Machine/Encoder.lean ====
section
/-! DEFINITION. `ENC` (40_encoder.md). -/

namespace Sys2Proof.Machine

/-- `k`, the number of extra bytes of a short form: the bit-count path (40_encoder.md R103, R104). -/
def extraBytes (value : U64) : Nat := div7 (msb64 (value ||| 1))

/-- `W`, the working word of a short form: the bit-shift path (40_encoder.md R105). -/
def encWord (value : U64) : U64 := shl64 (shl64 value 1 ||| 1) (extraBytes value)

/-- The path selection and the length reported (40_encoder.md R102, R106, R107), which follows the length classes and
never falls as the value grows (R114 a). -/
def encLen (value : U64) : Nat :=
  if value.toNat < Config.longMin then extraBytes value + 1 else 9

/-- What the reference datapath stores (40_encoder.md R106, R107, R109). -/
def encStore (m : Memory) (value : U64) (dest : Nat) : Memory :=
  if value.toNat < Config.longMin then m.memWrite dest 8 (encWord value)
  else (m.memWrite dest 1 0x00).memWrite (dest + 1) 8 value

/-- The window bytes past the chunk: open under the contract, as stored under the reference datapath
(40_encoder.md R108, R109). -/
def encTail (s : State) (dest len : Nat) : State :=
  match s.cfg.tail with
  | .contract => s.spoil (dest + len) (9 - len)
  | .reference => s

/-- `ENC value, dest -> len` (40_encoder.md R113; its laws R114 are said of this meaning in Obligations.lean). -/
def execEnc (value : U64) (dest : Nat) (s : State) : Host.Outcome State Fault Refusal :=
  guarded (admitEnc s dest)
    (.next (encTail ((s.withMem (encStore s.mem value dest)).withResult (some (.enc (encLen value))))
      dest (encLen value)))

end Sys2Proof.Machine
end

