-- ==== Sys2Proof/Machine/Dispatch.lean ====
section
/-! DEFINITION. One arm per instruction. -/

namespace Sys2Proof.Machine

def exec (i : Instr) (s : State) : Host.Outcome State Fault Refusal :=
  match i with
  | .enc value dest => Sys2Proof.Machine.execEnc value dest s
  | .decf src => Sys2Proof.Machine.execDecf src s
  | .decs begin_ end_ => Sys2Proof.Machine.execDecs begin_ end_ s
  | .s1 v => Sys2Proof.Machine.execS1 v s
  | .s2 v => Sys2Proof.Machine.execS2 v s
  | .s3 v => Sys2Proof.Machine.execS3 v s
  | .s4 v => Sys2Proof.Machine.execS4 v s
  | .s5 v => Sys2Proof.Machine.execS5 v s
  | .s6 v => Sys2Proof.Machine.execS6 v s
  | .s7 v => Sys2Proof.Machine.execS7 v s
  | .s8 v => Sys2Proof.Machine.execS8 v s
  | .l9 v => Sys2Proof.Machine.execL9 v s

end Sys2Proof.Machine
end

