-- ==== Sys2Proof/Machine/Fetch.lean ====
section
/-! DEFINITION. Where the next instruction comes from: the command port first, then the caller's walk
(30_encoding.md R82, R85; log 2, log 3, log 14). -/

namespace Sys2Proof.Machine

/-- What a step finds to do. -/
inductive Fetch where
  /-- nothing is asked of the codec -/
  | idle
  /-- an instruction, and the state it runs in -/
  | run (i : Instr) (s : State)
  /-- a chunk whose declared length the `DECS` window does not hold; only its first byte was read -/
  | cutShort
  /-- an invocation outside the contract -/
  | refuse (why : Refusal)
  deriving DecidableEq, Repr

/-- The admission of the walk's next read (20_memory.md R51). -/
def admitReader (s : State) : Option Refusal :=
  match s.reader.decoder with
  | .safe => admitDecs s s.reader.begin_ s.reader.end_
  | .fast => admitDecf s s.reader.begin_

/-- The bytes the walk's decoder may look at from the cursor (20_memory.md R48, R49). -/
def readerAvail (s : State) : Nat :=
  match s.reader.decoder with
  | .safe => s.reader.end_ - s.reader.begin_
  | .fast => 9

/-- Read the first byte, then as many bytes as it declares (30_encoding.md R85; 42_decoder_safe.md R156). -/
def fetchChunk (s : State) : Fetch :=
  match admitReader s with
  | some why => .refuse why
  | none =>
    if readerAvail s < declaredLength (s.mem.readByte s.reader.begin_) then .cutShort
    else
      match decodeChunk (s.mem.readBytes s.reader.begin_ (declaredLength (s.mem.readByte s.reader.begin_))) with
      | .ok (i, _) => .run i s
      | .error _ => .cutShort

/-- The walk goes on while the cursor is below the end of the window (45_stream.md R176, R177). -/
def walkGoesOn (s : State) : Bool := s.reader.walking && decide (s.reader.begin_ < s.reader.end_)

/-- The next instruction: the oldest command word, or the chunk at the cursor of a walk that goes on. -/
def fetch (s : State) : Fetch :=
  match s.port with
  | w :: ws =>
    match decodeCommand s.cfg.aw w with
    | .ok i => .run i (s.withPort ws)
    | .error _ => .refuse .opReserved
  | [] => if walkGoesOn s then fetchChunk s else .idle

/-- The read of a chunk the `DECS` window does not hold: `E_TRUNCATED`, and the walk stops
(42_decoder_safe.md R154, R155; 45_stream.md R172, R177). -/
def walkTruncated (s : State) : State := failDecs s.stopWalk .eTruncated

/-- The state whose next fetch finds the word of spec/opcode_table.json: an operation at the head of the command
port, a chunk at the cursor of a walk that goes on (log 4, log 18). -/
def placeWord (s : State) (nbits w : Nat) : State :=
  match tableCode nbits w with
  | .command c => (s.withPort (c :: s.port)).withResetPending false
  | .chunk bytes =>
    (((s.withMem (s.mem.writeBytes s.reader.begin_ bytes)).withPort []).withReader
      { s.reader with end_ := s.reader.begin_ + 9, walking := true }).withResetPending false

end Sys2Proof.Machine
end

