-- ==== Sys2Proof/Machine/ResetCut.lean ====
section
/-! DEFINITION. Reset: nothing in the block to set (70_reset_and_hazards.md R220), and an operation it cuts off (R221). -/

namespace Sys2Proof.Machine

/-- After a reset no result field carries a value (10_state.md R32). -/
def resetDone (s : State) : State := (s.withResult none).withResetPending false

/-- What an operation cut off by reset leaves: every byte of an `ENC` window open, nothing for a decoder
(70_reset_and_hazards.md R221). -/
def cutEffect (i : Instr) (s : State) : State :=
  match i with
  | .enc _ dest => s.spoil dest 9
  | .decf _ => s
  | .decs _ _ => s
  | .s1 _ => s
  | .s2 _ => s
  | .s3 _ => s
  | .s4 _ => s
  | .s5 _ => s
  | .s6 _ => s
  | .s7 _ => s
  | .s8 _ => s
  | .l9 _ => s

/-- An operation outside its contract stays refused when a reset cuts it off (log 19). -/
def cutOff (i : Instr) (s : State) : Host.Outcome State Fault Refusal :=
  match exec i s with
  | .next _ => .next (resetDone (cutEffect i s))
  | .fault f => .fault f
  | .refused why => .refused why

/-- A step in which a reset arrives (70_reset_and_hazards.md R220, R221). -/
def stepReset (s : State) : Host.Outcome State Fault Refusal :=
  match fetch s with
  | .idle => .next (resetDone s)
  | .run i t => cutOff i t
  | .cutShort => .next (resetDone s)
  | .refuse why => .refused why

/-- A step in which none does: one operation, whole (20_memory.md R52). -/
def stepRun (s : State) : Host.Outcome State Fault Refusal :=
  match fetch s with
  | .idle => .next s
  | .run i t => exec i t
  | .cutShort => .next (walkTruncated s)
  | .refuse why => .refused why

end Sys2Proof.Machine
end

