-- ==== Sys2Proof/Machine/Step.lean ====
section
/-! DEFINITION. The step, and the placing of a word where it fetches. -/

namespace Sys2Proof.Machine

/-- One step: at most one operation, atomic (20_memory.md R52), whole or cut off by a reset. -/
def step (s : State) : Host.Outcome State Fault Refusal :=
  if s.resetPending then stepReset s else stepRun s

/-- `s` with that word where `step` fetches next (the host's question; log 18). -/
def State.withFetchWord (s : State) (nbits w : Nat) : State := placeWord s nbits w

end Sys2Proof.Machine
end

