-- ==== Sys2Proof/Machine/Stream.lean ====
section
/-! DEFINITION. How the caller composes operations (45_stream.md): the other calling convention (R173), appending a
stream (R174), walking one with `DECF` (R176) and with `DECS` (R177). -/

namespace Sys2Proof.Machine

/-! ## The two calling conventions -/

/-- The end pointer of a result (45_stream.md R173): `start + len`, or the advanced cursor; none after a failure. -/
def endPtr (start : Nat) : Result → Option Nat
  | .enc len => some (start + len)
  | .decf _ len => some (start + len)
  | .decs .ok _ newBegin => some newBegin
  | .decs .eTruncated _ _ => none
  | .decs .eNoncanonical _ _ => none
  | .decs .eFolded _ _ => none

/-- The byte count of a result (45_stream.md R173): `len`, or `new_begin - begin`; none after a failure. -/
def byteCount (start : Nat) : Result → Option Nat
  | .enc len => some len
  | .decf _ len => some len
  | .decs .ok _ newBegin => some (newBegin - start)
  | .decs .eTruncated _ _ => none
  | .decs .eNoncanonical _ _ => none
  | .decs .eFolded _ _ => none

/-- An operation followed by one addition or subtraction on its result (30_encoding.md R84). -/
def thenConvert (f : Result → Option Nat) (o : Host.Outcome State Fault Refusal) :
    Host.Outcome (State × Option Nat) Fault Refusal :=
  match o with
  | .next t => .next (t, t.result.bind f)
  | .fault r => .fault r
  | .refused r => .refused r

/-- `ENC.P value, dest -> end_ptr` (30_encoding.md R84). -/
def execEncP (value : U64) (dest : Nat) (s : State) : Host.Outcome (State × Option Nat) Fault Refusal :=
  thenConvert (endPtr dest) (exec (.enc value dest) s)

/-- `DECF.P src -> value_out, end_ptr` (30_encoding.md R84). -/
def execDecfP (src : Nat) (s : State) : Host.Outcome (State × Option Nat) Fault Refusal :=
  thenConvert (endPtr src) (exec (.decf src) s)

/-- `DECS.N begin, end -> OK value_out, len | ERR cause` (30_encoding.md R84). -/
def execDecsN (begin_ end_ : Nat) (s : State) : Host.Outcome (State × Option Nat) Fault Refusal :=
  thenConvert (byteCount begin_) (exec (.decs begin_ end_) s)

/-! ## Streams -/

/-- The bytes of a stream: its chunks laid end to end (45_stream.md R171). -/
def streamBytes (vs : List U64) : List Byte := vs.flatMap encBytes

/-- The address past the last window of an append from `p` (45_stream.md R174): every `ENC` has a window of 9 bytes,
and the last one starts where the chunks before it end. -/
def appendPast (vs : List U64) (p : Nat) : Nat :=
  if vs = [] then p else p + (streamBytes vs.dropLast).length + Config.window

/-- Split at most `n` chunks off the front of a byte stream, until nothing is left (30_encoding.md R85). -/
def splitChunks : Nat → List Byte → Except Reject (List Instr)
  | _, [] => .ok []
  | 0, _ :: _ => .error .cutShort
  | n + 1, b :: bs =>
    match decodeChunk (b :: bs) with
    | .ok (i, rest) => (splitChunks n rest).map (fun cs => i :: cs)
    | .error r => .error r

/-- The chunks of a byte stream (45_stream.md R171; 40_encoder.md R114 b): each takes a byte or more, so as many
chunks as the stream has bytes are enough. -/
def splitStream (bs : List Byte) : Except Reject (List Instr) := splitChunks bs.length bs

/-- Append a stream from a write position; the position and the state after it (45_stream.md R174). -/
def appendStream : List U64 → Nat → State → Host.Outcome (Nat × State) Fault Refusal
  | [], p, s => .next (p, s)
  | v :: vs, p, s =>
    match execEncP v p s with
    | .next (t, some q) => appendStream vs q t
    | .next (t, none) => .next (p, t)
    | .fault r => .fault r
    | .refused r => .refused r

/-- Where a walk ended: the values it took, its cursor, the failure that stopped it if one did, and the state. -/
structure WalkEnd where
  values  : List U64
  cursor  : Nat
  failure : Option Status
  last    : State
  deriving DecidableEq, Repr

/-- The walk took one value more before it went on. -/
def WalkEnd.after (v : U64) (w : WalkEnd) : WalkEnd := { w with values := v :: w.values }

/-- The rest of a walk, after one value. -/
def walkOn (v : U64) (o : Host.Outcome WalkEnd Fault Refusal) : Host.Outcome WalkEnd Fault Refusal :=
  match o with
  | .next w => .next (w.after v)
  | .fault r => .fault r
  | .refused r => .refused r

/-- Decode `n` chunks from a cursor with `DECF` (45_stream.md R176). -/
def walkFast : Nat → Nat → State → Host.Outcome WalkEnd Fault Refusal
  | 0, q, s => .next ⟨[], q, none, s⟩
  | n + 1, q, s =>
    match exec (.decf q) s with
    | .next t =>
      match t.result with
      | some (.decf v len) => walkOn v (walkFast n (q + len) t)
      | _ => .next ⟨[], q, none, t⟩
    | .fault r => .fault r
    | .refused r => .refused r

/-- Decode at most `n` chunks of a window with `DECS`, stopping at its end or at a failure (45_stream.md R177). -/
def walkSafe : Nat → Nat → Nat → State → Host.Outcome WalkEnd Fault Refusal
  | 0, b, _, s => .next ⟨[], b, none, s⟩
  | n + 1, b, e, s =>
    if b < e then
      match exec (.decs b e) s with
      | .next t =>
        match t.result with
        | some (.decs .ok v nb) => walkOn v (walkSafe n nb e t)
        | some (.decs cause _ _) => .next ⟨[], b, some cause, t⟩
        | _ => .next ⟨[], b, none, t⟩
      | .fault r => .fault r
      | .refused r => .refused r
    else .next ⟨[], b, none, s⟩

/-- The walk of 45_stream.md R177 over a whole window: every success takes a byte or more, so as many
operations as the window has bytes are enough. -/
def walkWindow (b e : Nat) (s : State) : Host.Outcome WalkEnd Fault Refusal := walkSafe (e - b) b e s

end Sys2Proof.Machine
end

