-- ==== Sys2Proof/Safety.lean ====
section
/-! DEFINITION. What the statements speak of: the contract of each operation in the words of the spec, the bytes an
operation may look at, and the invariant of the machine. -/

namespace Sys2Proof.Machine

/-! ## The contract (20_memory.md R51, R53, R55, R57; 60_exceptions.md R195) -/

/-- The address lies in the region. -/
def Region.holds (r : Region) (x : Nat) : Prop := r.base ≤ x ∧ x < r.past

/-- The caller granted reading this address. -/
def State.ReadableAt (s : State) (x : Nat) : Prop := x < 2 ^ s.cfg.aw ∧ ∃ r ∈ s.readable, r.holds x

/-- The caller granted writing this address. -/
def State.WritableAt (s : State) (x : Nat) : Prop := x < 2 ^ s.cfg.aw ∧ ∃ r ∈ s.writable, r.holds x

/-- Device memory lies at this address. -/
def State.DeviceAt (s : State) (x : Nat) : Prop := ∃ r ∈ s.devices, r.holds x

/-- Another agent uses this address while the next operation runs. -/
def State.UsedAt (s : State) (x : Nat) : Prop := ∃ c ∈ s.busy, c.window.holds x

/-- Another agent may write this address while the next operation runs. -/
def State.WrittenAt (s : State) (x : Nat) : Prop := ∃ c ∈ s.busy, c.writes = true ∧ c.window.holds x

/-- `ENC` is inside its contract at `dest`: nine writable bytes of plain memory no other agent uses. -/
def State.EncAdmitted (s : State) (dest : Nat) : Prop :=
  ∀ x, dest ≤ x → x < dest + 9 → s.WritableAt x ∧ ¬ s.DeviceAt x ∧ ¬ s.UsedAt x

/-- A decoder may read `a .. e-1`: readable plain memory no other agent writes. -/
def State.ReadAdmitted (s : State) (a e : Nat) : Prop :=
  ∀ x, a ≤ x → x < e → s.ReadableAt x ∧ ¬ s.DeviceAt x ∧ ¬ s.WrittenAt x

/-- The window of `DECF` is inside its contract (41_decoder_fast.md R131 a). -/
def State.DecfAdmitted (s : State) (src : Nat) : Prop := s.ReadAdmitted src (src + 9)

/-- The window of `DECS` is inside its contract (42_decoder_safe.md R151): bounds in order, both of them addresses
(00_scope.md R7, 10_state.md R26), and all of the window readable. -/
def State.DecsAdmitted (s : State) (begin_ end_ : Nat) : Prop :=
  begin_ ≤ end_ ∧ end_ < 2 ^ s.cfg.aw ∧ s.ReadAdmitted begin_ end_

/-! ## Bytes -/

/-- The bytes from `a` upward are these. -/
def Memory.Holds (m : Memory) (a : Nat) (bs : List Byte) : Prop :=
  ∀ n, (h : n < bs.length) → m.readByte (a + n) = bs[n]

/-- The bytes from `a` upward begin with the chunk `i` (30_encoding.md R85). -/
def Memory.HoldsChunk (m : Memory) (a : Nat) (i : Instr) : Prop :=
  isChunk i = true ∧ m.Holds a (encodeChunk i)

/-- Two memories give the same bytes at `a .. e-1`. -/
def Memory.AgreeOn (m m' : Memory) (a e : Nat) : Prop := ∀ x, a ≤ x → x < e → m.readByte x = m'.readByte x

/-- Two memories give the same bytes outside `a .. e-1`. -/
def Memory.AgreeOutside (m m' : Memory) (a e : Nat) : Prop :=
  ∀ x, x < a ∨ e ≤ x → m.readByte x = m'.readByte x

/-! ## Outcomes -/

/-- `DECS` failed in band with this cause (42_decoder_safe.md R157): some `value_out` and `new_begin` that no
statement names, nothing else but the model's own draw counter changed. -/
def FailsWith (s : State) (cause : Status) (o : Host.Outcome State Fault Refusal) : Prop :=
  ∃ (v : U64) (a : Nat), o = .next { s with
    result := some (.decs (reportCause s.cfg.errDetail cause) v a), draws := s.draws + 2 }

/-- `DECS` succeeded (42_decoder_safe.md R160): the result fields, nothing else changed. -/
def SucceedsWith (s : State) (v : U64) (newBegin : Nat) (o : Host.Outcome State Fault Refusal) : Prop :=
  o = .next { s with result := some (.decs .ok v newBegin) }

/-- What a caller may use of the result fields: on failure `value_out` and `new_begin` are unspecified
(42_decoder_safe.md R157), so they are left out. -/
def meaningOf : Option Result → Option Result
  | some (.decs .eTruncated _ _) => some (.decs .eTruncated 0 0)
  | some (.decs .eNoncanonical _ _) => some (.decs .eNoncanonical 0 0)
  | some (.decs .eFolded _ _) => some (.decs .eFolded 0 0)
  | r => r

/-- The byte at `x` is one `ENC` leaves open: a tail byte under the contract (40_encoder.md R108). -/
def LeftOpen (p : Config.Params) (i : Instr) (x : Nat) : Prop :=
  match i with
  | .enc v dest => p.tail = .contract ∧ dest + (encBytes v).length ≤ x ∧ x < dest + 9
  | _ => False

/-- The window of an operation, first address and the one past it (20_memory.md R47, R48, R49). -/
def opWindow : Instr → Nat × Nat
  | .enc _ dest => (dest, dest + 9)
  | .decf src => (src, src + 9)
  | .decs begin_ end_ => (begin_, end_)
  | _ => (0, 0)

/-- The operation is an `ENC`. -/
def isEnc : Instr → Bool
  | .enc _ _ => true
  | _ => false

/-- Two operations conflict: their windows share a byte and at least one is an `ENC` (20_memory.md R57 b). -/
def Conflict (i j : Instr) : Prop :=
  (isEnc i = true ∨ isEnc j = true) ∧
    ∃ x, ((opWindow i).1 ≤ x ∧ x < (opWindow i).2) ∧ (opWindow j).1 ≤ x ∧ x < (opWindow j).2

/-- Two states the codec cannot tell apart: the same parameters, memory, grants and claims (10_state.md R20). -/
def State.SameForCodec (s t : State) : Prop :=
  t.cfg = s.cfg ∧ t.mem = s.mem ∧ t.readable = s.readable ∧ t.writable = s.writable ∧
    t.devices = s.devices ∧ t.busy = s.busy

/-! ## The invariant -/

/-- Every listed address lies in the address space (20_memory.md R40). -/
def Memory.within (m : Memory) (bound : Nat) : Bool :=
  m.cells.all (fun p => decide (p.1 < bound)) && m.free.all (fun p => decide (p.1 < bound))

/-- Every open byte was drawn already, so the next draw is a fresh one (00_scope.md R16). -/
def Memory.drawnBelow (m : Memory) (d : Nat) : Bool := m.free.all (fun p => decide (p.2 < d))

/-- A length is in `1 .. 9` (00_scope.md R7, R17). -/
def lenLegal (len : Nat) : Bool := decide (1 ≤ len) && decide (len ≤ 9)

/-- The result fields hold what 10_state.md R27 lists: a length in `1 .. 9`, a short form's value in its
`7 * len` payload bits (41_decoder_fast.md R137), a `new_begin` of `AW` bits, and a status the machine reports
(60_exceptions.md R191, R192). -/
def resultLegal (p : Config.Params) : Option Result → Bool
  | none => true
  | some (.enc len) => lenLegal len
  | some (.decf v len) => lenLegal len && (decide (len = 9) || decide (v.toNat < 2 ^ (7 * len)))
  | some (.decs .ok _ newBegin) => decide (newBegin < 2 ^ p.aw)
  | some (.decs .eTruncated _ newBegin) => decide (p.errDetail = .keptApart) && decide (newBegin < 2 ^ p.aw)
  | some (.decs .eNoncanonical _ newBegin) => decide (p.errDetail = .keptApart) && decide (newBegin < 2 ^ p.aw)
  | some (.decs .eFolded _ newBegin) => decide (p.errDetail = .folded) && decide (newBegin < 2 ^ p.aw)

/-- The end of the caller's window is an address, and its cursor is one or the one past the last (00_scope.md R5,
R17): where a `DECF` takes the last byte of the address space the cursor stands past it (log 17). -/
def Reader.legal (r : Reader) (bound : Nat) : Bool := decide (r.begin_ ≤ bound) && decide (r.end_ < bound)

/-- The invariant every step keeps. -/
def State.inv (s : State) : Bool :=
  s.mem.wf && s.mem.within (2 ^ s.cfg.aw) && s.mem.drawnBelow s.draws && resultLegal s.cfg s.result &&
    s.reader.legal (2 ^ s.cfg.aw)

end Sys2Proof.Machine
end

