-- ==== Sys2Proof/Certificates/Slice0/Obligations.lean ====
section
/-! DEFINITION. The statements for the provers. Each docstring names the rules it formalises. -/

open Sys2Proof Sys2Proof.Machine

/-! ## Encodings -/

/-- A few chunks and command words written out from 30_encoding.md R72, R74, R82 decode to what they stand for.
The bytes of the values 0 and 127 are the source's own (95_test_vectors.md section 1.1); the packing of the command
words is the model's choice (log 2). -/
def Obligations.WrittenOutWordsDecode : Prop :=
  decodeChunk [0b00000001] = .ok (.s1 0, []) ∧
  decodeChunk [0b11111111] = .ok (.s1 127, []) ∧
  decodeChunk [0b10110010, 0b00000100, 0xAA] = .ok (.s2 300, [0xAA]) ∧
  decodeChunk [0b00000000, 0xEF, 0xCD, 0xAB, 0x89, 0x67, 0x45, 0x23, 0x01] = .ok (.l9 0x0123456789ABCDEF, []) ∧
  decodeCommand 64 0b00 = .ok (.enc 0 0) ∧
  decodeCommand 64 0b100001 = .ok (.decf 8) ∧
  decodeCommand 64 0b1110 = .ok (.decs 3 0) ∧
  decodeCommand 64 0b11 = .error .opReserved

/-- 30_encoding.md R72: exactly one row of the first-byte map takes any byte, and the length it gives is 9 for a
zero byte and the count of zero bits below the lowest set bit plus 1 for any other; each row takes as many bytes as
the table says. -/
def Obligations.FirstByteMapIsTotalAndDisjoint : Prop :=
  (∀ b : Byte, (formRows.filter (fun r => r.takes b)).length = 1 ∧
    declaredLength b = if b = 0x00 then 9 else lsb8 b + 1) ∧
  formRows.map (fun r => ((List.range 256).filter (fun n => r.takes (BitVec.ofNat 8 n))).length) =
    [128, 64, 32, 16, 8, 4, 2, 1, 1]

/-- 30_encoding.md R85: the chunk at the front of a stream is read back whole, and what follows it is left, whatever follows. -/
def Obligations.ChunkReadsBackFromStream : Prop :=
  ∀ (i : Instr) (rest : List Byte), isChunk i = true → decodeChunk (encodeChunk i ++ rest) = .ok (i, rest)

/-- Decoding an encoded well-formed instruction gives it back, for every address width, the operations (whose
packing is the model's choice, log 2) and the chunk forms. -/
def Obligations.DecodeInvertsEncode : Prop :=
  ∀ (aw : Nat) (i : Instr), wellFormed aw i = true → decode aw (encode aw i) = .ok i

/-- 30_encoding.md R79: no byte sequence of the declared length is without a decoding, and each is exactly the
chunk it decodes to. -/
def Obligations.EveryByteSequenceIsOneChunk : Prop :=
  ∀ (b : Byte) (rest : List Byte), declaredLength b ≤ rest.length + 1 →
    ∃ i after, decodeChunk (b :: rest) = .ok (i, after) ∧ isChunk i = true ∧
      chunkLength i = declaredLength b ∧ b :: rest = encodeChunk i ++ after

/-- 30_encoding.md R73: a short-form chunk of `k + 1` bytes is the integer `v * 2^(k+1) + 2^k`. -/
def Obligations.ShortFormLayout : Prop :=
  ∀ (i : Instr) (k : Nat), isChunk i = true → k ≤ 7 → chunkLength i = k + 1 →
    (encodeChunk i).length = k + 1 ∧ (chunkValue i).toNat < 2 ^ (7 * (k + 1)) ∧
      leInt (encodeChunk i) = (chunkValue i).toNat * 2 ^ (k + 1) + 2 ^ k ∧
      (∀ j, j < k → (leInt (encodeChunk i)).testBit j = false) ∧ (leInt (encodeChunk i)).testBit k = true ∧
      ∀ j, j < 7 * (k + 1) → (leInt (encodeChunk i)).testBit (j + k + 1) = (chunkValue i).getLsbD j

/-- 40_encoder.md R114 (b): different values have different chunks, and none is a proper prefix of another. -/
def Obligations.NoChunkBeginsAnother : Prop :=
  ∀ v w : U64, encBytes v <+: encBytes w → v = w

/-! ## The step -/

/-- The step takes the oldest command word of the port and runs the instruction it decodes to.
The port is the model's (log 2), and so is that its commands go before a walk that goes on (log 14). -/
def Obligations.StepRunsThePortCommand : Prop :=
  ∀ (s : State) (w : Nat) (ws : List Nat) (i : Instr), s.resetPending = false → s.port = w :: ws →
    decodeCommand s.cfg.aw w = .ok i → step s = exec i { s with port := ws }

/-- With no command, the step of a walk that goes on runs the chunk form that stands at the cursor (log 3):
in a `DECS` walk if the window holds all of it, in a `DECF` walk always. -/
def Obligations.StepRunsTheChunkAtTheCursor : Prop :=
  ∀ (s : State) (i : Instr), s.resetPending = false → s.port = [] → s.reader.walking = true →
    s.reader.begin_ < s.reader.end_ → s.mem.HoldsChunk s.reader.begin_ i →
    (s.reader.decoder = .safe ∧ s.DecsAdmitted s.reader.begin_ s.reader.end_ ∧
        chunkLength i ≤ s.reader.end_ - s.reader.begin_ ∨
      s.reader.decoder = .fast ∧ s.DecfAdmitted s.reader.begin_) →
    step s = exec i s

/-- With no command and no walk that goes on, nothing changes (log 14). -/
def Obligations.StepWithNothingToDoIsIdle : Prop :=
  ∀ s : State, s.resetPending = false → s.port = [] →
    (s.reader.walking = false ∨ s.reader.end_ ≤ s.reader.begin_) → step s = .next s

/-- 30_encoding.md R82: the select code `11` is refused.
That it stands in bits 1..0 of a word of the port is the model's choice (log 2), and so is that the port goes before a
walk (log 14) and that the word is refused when a reset arrives with it (log 19). -/
def Obligations.ReservedSelectCodeIsRefused : Prop :=
  ∀ (s : State) (w : Nat) (ws : List Nat), s.port = w :: ws → w % 4 = 3 → step s = .refused .opReserved

/-- 45_stream.md R177, R172: a walk whose window ends inside a chunk fails with `E_TRUNCATED`; the cursor stays at
the start of the cut chunk and the walk stops. -/
def Obligations.WalkStopsAtACutChunk : Prop :=
  ∀ s : State, s.resetPending = false → s.port = [] → s.reader.walking = true → s.reader.decoder = .safe →
    s.reader.begin_ < s.reader.end_ → s.DecsAdmitted s.reader.begin_ s.reader.end_ →
    s.reader.end_ - s.reader.begin_ < declaredLength (s.mem.readByte s.reader.begin_) →
    FailsWith { s with reader := { s.reader with walking := false } } .eTruncated (step s)

/-! ## `ENC` -/

/-- 40_encoder.md R104: the bit-count path divides the index of the most significant set bit by 7, and so finds the
least `k` whose `7(k+1)` payload bits hold the value. -/
def Obligations.ExtraBytesIsLeast : Prop :=
  ∀ v : U64, v.toNat < 2 ^ 56 → extraBytes v = msb64 (v ||| 1) / 7 ∧ extraBytes v ≤ 7 ∧
    v.toNat < 2 ^ (7 * (extraBytes v + 1)) ∧ (∀ j, j < extraBytes v → 2 ^ (7 * (j + 1)) ≤ v.toNat) ∧
    ∀ k, (msb64 (v ||| 1) ≤ 7 * k + 6 ↔ v.toNat < 2 ^ (7 * k + 7)) ∧
      (1 ≤ k → (7 * k ≤ msb64 (v ||| 1) ↔ 2 ^ (7 * k) ≤ v.toNat))

/-- 40_encoder.md R105: the bit-shift path loses no bit, and lays the value above `k` zero bits and the marker. -/
def Obligations.WorkingWordIsExact : Prop :=
  ∀ v : U64, v.toNat < 2 ^ 56 → (encWord v).toNat = (2 * v.toNat + 1) * 2 ^ extraBytes v ∧
    (encWord v).toNat < 2 ^ (8 * (extraBytes v + 1)) ∧
    (∀ j, j < extraBytes v → (encWord v).getLsbD j = false) ∧ (encWord v).getLsbD (extraBytes v) = true ∧
    ∀ j, j + extraBytes v + 1 < 64 → (encWord v).getLsbD (j + extraBytes v + 1) = v.getLsbD j

/-- 40_encoder.md R100, R110: inside its contract `ENC` completes for every value, reports the length of the canonical
chunk and leaves exactly that chunk's bytes from `dest` upward.
The canonical chunk is the one of the class table 30_encoding.md R76, not of the datapath. -/
def Obligations.EncWritesTheCanonicalChunk : Prop :=
  ∀ (s : State) (v : U64) (dest : Nat), s.EncAdmitted dest →
    ∃ t, exec (.enc v dest) s = .next t ∧ t.result = some (.enc (encBytes v).length) ∧
      1 ≤ (encBytes v).length ∧ (encBytes v).length ≤ 9 ∧ t.mem.Holds dest (encBytes v)

/-- 40_encoder.md R107: the long form, byte by byte. -/
def Obligations.EncLongForm : Prop :=
  ∀ (s : State) (v : U64) (dest : Nat), s.EncAdmitted dest → 2 ^ 56 ≤ v.toNat →
    ∃ t, exec (.enc v dest) s = .next t ∧ t.result = some (.enc 9) ∧ t.mem.readByte dest = 0x00 ∧
      ∀ n, n < 8 → t.mem.readByte (dest + 1 + n) = v.extractLsb' (8 * n) 8

/-- The frame of `ENC`: only memory, the result fields and the model's draw counter may change, and no byte outside
`dest .. dest+8` does (20_memory.md R47; 70_reset_and_hazards.md R223). -/
def Obligations.EncFrame : Prop :=
  ∀ (s t : State) (v : U64) (dest : Nat), exec (.enc v dest) s = .next t →
    t = { s with mem := t.mem, result := t.result, draws := t.draws } ∧
      t.mem.AgreeOutside s.mem dest (dest + 9)

/-- 40_encoder.md R108: under the contract every tail byte is a fresh draw: none was drawn before, and no two are one draw.
The numbering of draws is the model's (log 7). -/
def Obligations.EncTailIsOpenUnderTheContract : Prop :=
  ∀ (s t : State) (v : U64) (dest n : Nat), s.cfg.tail = .contract → exec (.enc v dest) s = .next t →
    (encBytes v).length ≤ n → n < 9 →
    t.mem.readByte (dest + n) = Config.anyByte (s.draws + (n - (encBytes v).length)) ∧
      t.draws = s.draws + (9 - (encBytes v).length)

/-- 40_encoder.md R109: the reference datapath leaves zeros up to `dest+7` and, on the short path, `dest+8` as it was. -/
def Obligations.EncTailOfTheReferenceDatapath : Prop :=
  ∀ (s t : State) (v : U64) (dest : Nat), s.cfg.tail = .reference → exec (.enc v dest) s = .next t →
    (∀ n, (encBytes v).length ≤ n → n < 8 → t.mem.readByte (dest + n) = 0x00) ∧
      ((encBytes v).length ≤ 8 → t.mem.readByte (dest + 8) = s.mem.readByte (dest + 8)) ∧ t.draws = s.draws

/-- 40_encoder.md R101: an `ENC` whose window is not wholly writable, or passes the top of the address space, is refused.
That this is the reason given also where the window is device memory or another agent uses it is the model's choice
(log 15). -/
def Obligations.EncOutsideItsWindowIsRefused : Prop :=
  ∀ (s : State) (v : U64) (dest x : Nat), dest ≤ x → x < dest + 9 → ¬ s.WritableAt x →
    exec (.enc v dest) s = .refused .encWindow

/-- 40_encoder.md R114 (a): the reported length follows the length classes and never falls as the value grows. -/
def Obligations.EncLengthFollowsTheClasses : Prop :=
  ∀ (s t : State) (v : U64) (dest : Nat), exec (.enc v dest) s = .next t → ∃ len, t.result = some (.enc len) ∧
    (v.toNat < 2 ^ 7 → len = 1) ∧
    (∀ j, 1 ≤ j → j ≤ 7 → 2 ^ (7 * j) ≤ v.toNat → v.toNat < 2 ^ (7 * j + 7) → len = j + 1) ∧
    (2 ^ 56 ≤ v.toNat → len = 9) ∧
    ∀ (s' t' : State) (w : U64) (dest' : Nat), exec (.enc w dest') s' = .next t' → v.toNat ≤ w.toNat →
      ∃ len', t'.result = some (.enc len') ∧ len ≤ len'

/-- 40_encoder.md R114 (d), 30_encoding.md R80: the first byte written is zero exactly for the long form. -/
def Obligations.EncFirstByteIsZeroExactlyForLongForm : Prop :=
  ∀ (s t : State) (v : U64) (dest : Nat), exec (.enc v dest) s = .next t →
    (t.mem.readByte dest = 0x00 ↔ 2 ^ 56 ≤ v.toNat)

/-! ## `DECF` -/

/-- 41_decoder_fast.md R130: inside its contract `DECF` returns the value and the length of the chunk at `src`, and
changes nothing but its result fields. -/
def Obligations.DecfReturnsTheChunk : Prop :=
  ∀ (s : State) (src : Nat) (i : Instr), s.DecfAdmitted src → s.mem.HoldsChunk src i →
    canonical (chunkLength i) (chunkValue i) = true →
    exec (.decf src) s = .next { s with result := some (.decf (chunkValue i) (chunkLength i)) }

/-- 41_decoder_fast.md R131 (b), R140: a chunk that is not canonical is refused, or, under
`DECF_OUTSIDE_CONTRACT = datapath`, read as the datapath reads it. -/
def Obligations.DecfOnAChunkThatIsNotCanonical : Prop :=
  ∀ (s : State) (src : Nat) (i : Instr), s.DecfAdmitted src → s.mem.HoldsChunk src i →
    canonical (chunkLength i) (chunkValue i) = false →
    (s.cfg.decfOutside = .refuse → exec (.decf src) s = .refused .decfChunk) ∧
      (s.cfg.decfOutside = .datapath →
        exec (.decf src) s = .next { s with result := some (.decf (chunkValue i) (chunkLength i)) })

/-- 41_decoder_fast.md R131 (a): a `DECF` whose nine bytes are not all readable, or pass the top of the address
space, is refused.
That this is the reason given also where the window is device memory or another agent writes it is the model's choice
(log 15). -/
def Obligations.DecfOutsideItsWindowIsRefused : Prop :=
  ∀ (s : State) (src x : Nat), src ≤ x → x < src + 9 → ¬ s.ReadableAt x →
    exec (.decf src) s = .refused .decfWindow

/-- 41_decoder_fast.md R139: the bytes after the chunk do not affect the result. -/
def Obligations.DecfIgnoresWhatFollowsTheChunk : Prop :=
  ∀ (s : State) (m : Memory) (src : Nat),
    s.mem.AgreeOn m src (src + declaredLength (s.mem.readByte src)) →
    ∀ t, exec (.decf src) s = .next t →
      exec (.decf src) { s with mem := m } = .next { s with mem := m, result := t.result }

/-- 41_decoder_fast.md R142 `ValidChunkAt`, 30_encoding.md R77: the check `DECF`'s contract makes is that the bytes
at the address begin with the canonical chunk of some value. -/
def Obligations.ValidChunkIsTheChunkOfSomeValue : Prop :=
  ∀ (m : Memory) (a : Nat), validChunkAt m a = true ↔ ∃ v : U64, m.Holds a (encBytes v)

/-! ## `DECS` -/

/-- 42_decoder_safe.md R152: an empty window at any address fails with `E_TRUNCATED`, whatever memory holds. -/
def Obligations.DecsOnAnEmptyWindow : Prop :=
  ∀ (s : State) (a : Nat), a < 2 ^ s.cfg.aw → FailsWith s .eTruncated (exec (.decs a a) s)

/-- 42_decoder_safe.md R154: the long-form branch. -/
def Obligations.DecsLongFormBranch : Prop :=
  ∀ (s : State) (b e : Nat), s.DecsAdmitted b e → b < e → s.mem.readByte b = 0x00 →
    (e - b < 9 → FailsWith s .eTruncated (exec (.decs b e) s)) ∧
    (9 ≤ e - b → s.mem.readByte (b + 8) = 0x00 → FailsWith s .eNoncanonical (exec (.decs b e) s)) ∧
    (9 ≤ e - b → s.mem.readByte (b + 8) ≠ 0x00 →
      ∃ v : U64, (∀ n, n < 8 → s.mem.readByte (b + 1 + n) = v.extractLsb' (8 * n) 8) ∧ 2 ^ 56 ≤ v.toNat ∧
        SucceedsWith s v (b + 9) (exec (.decs b e) s))

/-- 42_decoder_safe.md R155, R158: the short-form branch; an overlong short form is accepted like any other. -/
def Obligations.DecsShortFormBranch : Prop :=
  ∀ (s : State) (b e k : Nat), s.DecsAdmitted b e → b < e → s.mem.readByte b ≠ 0x00 → lsb8 (s.mem.readByte b) = k →
    (e - b < k + 1 → FailsWith s .eTruncated (exec (.decs b e) s)) ∧
    (k + 1 ≤ e - b → ∃ v : U64, v.toNat = leInt (s.mem.readBytes b (k + 1)) / 2 ^ (k + 1) ∧
      SucceedsWith s v (b + (k + 1)) (exec (.decs b e) s))

/-- 42_decoder_safe.md R162, 60_exceptions.md R192: `DECS` inside its contract always completes, with success or one of
the two failures, and changes neither memory nor anything but its result fields and the model's draw counter. -/
def Obligations.DecsAlwaysCompletes : Prop :=
  ∀ (s : State) (b e : Nat), s.DecsAdmitted b e →
    (∃ v newBegin, b < newBegin ∧ newBegin ≤ e ∧ SucceedsWith s v newBegin (exec (.decs b e) s)) ∨
      FailsWith s .eTruncated (exec (.decs b e) s) ∨ FailsWith s .eNoncanonical (exec (.decs b e) s)

/-- 42_decoder_safe.md R156: nothing outside `begin .. end-1` bears on what `DECS` does, on success nothing
outside `begin .. new_begin-1` does, in a window that holds the declared length nothing past that length does, be it
a success or a failure, and in a window too short for it nothing but the first byte does, nor that byte if the window
is empty. -/
def Obligations.DecsReadsInsideItsWindow : Prop :=
  ∀ (s t : State) (m : Memory) (b e : Nat), exec (.decs b e) s = .next t →
    (s.mem.AgreeOn m b e → exec (.decs b e) { s with mem := m } = .next { t with mem := m }) ∧
    (∀ v newBegin, t.result = some (.decs .ok v newBegin) → s.mem.AgreeOn m b newBegin →
      exec (.decs b e) { s with mem := m } = .next { t with mem := m }) ∧
    (declaredLength (s.mem.readByte b) ≤ e - b →
      s.mem.AgreeOn m b (b + declaredLength (s.mem.readByte b)) →
      exec (.decs b e) { s with mem := m } = .next { t with mem := m }) ∧
    (e - b < declaredLength (s.mem.readByte b) → (b < e → m.readByte b = s.mem.readByte b) →
      exec (.decs b e) { s with mem := m } = .next { t with mem := m })

/-- 42_decoder_safe.md R159, first sentence: on a valid chunk that the window holds, `DECS` succeeds with the value
`DECF` returns and the cursor moved by the length `DECF` returns. -/
def Obligations.DecsAgreesWithDecf : Prop :=
  ∀ (s t : State) (x v : U64) (b e len : Nat), s.mem.Holds b (encBytes x) → exec (.decf b) s = .next t →
    t.result = some (.decf v len) → b + len ≤ e → s.DecsAdmitted b e →
    SucceedsWith s v (b + len) (exec (.decs b e) s)

/-- 42_decoder_safe.md R159, last sentence: making the window longer never changes a success. -/
def Obligations.DecsLongerWindowKeepsASuccess : Prop :=
  ∀ (s : State) (b e e' newBegin : Nat) (v : U64), SucceedsWith s v newBegin (exec (.decs b e) s) → e ≤ e' →
    s.DecsAdmitted b e' → SucceedsWith s v newBegin (exec (.decs b e') s)

/-- 42_decoder_safe.md R151: bounds out of order, or a window not wholly readable, are refused; so is an end that is
no address of `AW` bits (log 1).
That this is the reason given also where the window is device memory or another agent writes it is the model's choice
(log 15). -/
def Obligations.DecsOutsideItsWindowIsRefused : Prop :=
  ∀ (s : State) (b e : Nat), (e < b ∨ 2 ^ s.cfg.aw ≤ e ∨ ∃ x, b ≤ x ∧ x < e ∧ ¬ s.ReadableAt x) →
    exec (.decs b e) s = .refused .decsWindow

/-! ## The chunk forms, read in a walk (log 3) -/

/-- A short form read in a `DECS` walk delivers its value and moves the cursor past it, and changes nothing else. -/
def Obligations.SafeWalkReadsAShortForm : Prop :=
  ∀ (s : State) (i : Instr), isChunk i = true → chunkLength i ≤ 8 → s.reader.decoder = .safe →
    s.DecsAdmitted s.reader.begin_ s.reader.end_ → chunkLength i ≤ s.reader.end_ - s.reader.begin_ →
    exec i s = .next { s with
      result := some (.decs .ok (chunkValue i) (s.reader.begin_ + chunkLength i)),
      reader := { s.reader with begin_ := s.reader.begin_ + chunkLength i } }

/-- A long form read in a `DECS` walk: delivered if canonical, else `E_NONCANONICAL` and the walk stops. -/
def Obligations.SafeWalkReadsALongForm : Prop :=
  ∀ (s : State) (v : BitVec 64), s.reader.decoder = .safe → s.DecsAdmitted s.reader.begin_ s.reader.end_ →
    9 ≤ s.reader.end_ - s.reader.begin_ →
    (2 ^ 56 ≤ v.toNat → exec (.l9 v) s = .next { s with
      result := some (.decs .ok v (s.reader.begin_ + 9)),
      reader := { s.reader with begin_ := s.reader.begin_ + 9 } }) ∧
    (v.toNat < 2 ^ 56 →
      FailsWith { s with reader := { s.reader with walking := false } } .eNoncanonical (exec (.l9 v) s))

/-- A canonical chunk of any form read in a `DECF` walk delivers its value and length and moves the cursor past it;
so does one that is not canonical under `DECF_OUTSIDE_CONTRACT = datapath`, and it is refused otherwise. -/
def Obligations.FastWalkReadsAChunk : Prop :=
  ∀ (s : State) (i : Instr), isChunk i = true → s.reader.decoder = .fast → s.DecfAdmitted s.reader.begin_ →
    (canonical (chunkLength i) (chunkValue i) = true ∨ s.cfg.decfOutside = .datapath →
      exec i s = .next { s with
        result := some (.decf (chunkValue i) (chunkLength i)),
        reader := { s.reader with begin_ := s.reader.begin_ + chunkLength i } }) ∧
    (canonical (chunkLength i) (chunkValue i) = false → s.cfg.decfOutside = .refuse →
      exec i s = .refused .decfChunk)

/-- 45_stream.md R177: a step of a `DECS` walk is `DECS` at the cursor, after which the caller moves its cursor on
success and stops on failure; the chunk decoder of the walk and the datapath of `DECS` agree on every chunk. -/
def Obligations.SafeWalkStepIsDecs : Prop :=
  ∀ s : State, s.resetPending = false → s.port = [] → s.reader.walking = true → s.reader.decoder = .safe →
    s.reader.begin_ < s.reader.end_ →
    (∀ t, exec (.decs s.reader.begin_ s.reader.end_) s = .next t →
      (∀ v newBegin, t.result = some (.decs .ok v newBegin) →
        step s = .next { t with reader := { s.reader with begin_ := newBegin } }) ∧
      ((∀ v newBegin, t.result ≠ some (.decs .ok v newBegin)) →
        step s = .next { t with reader := { s.reader with walking := false } })) ∧
    ∀ why, exec (.decs s.reader.begin_ s.reader.end_) s = .refused why ↔ step s = .refused why

/-- 45_stream.md R176: a step of a `DECF` walk is `DECF` at the cursor, after which the caller moves its cursor. -/
def Obligations.FastWalkStepIsDecf : Prop :=
  ∀ s : State, s.resetPending = false → s.port = [] → s.reader.walking = true → s.reader.decoder = .fast →
    s.reader.begin_ < s.reader.end_ →
    (∀ t v len, exec (.decf s.reader.begin_) s = .next t → t.result = some (.decf v len) →
      step s = .next { t with reader := { s.reader with begin_ := s.reader.begin_ + len } }) ∧
    ∀ why, exec (.decf s.reader.begin_) s = .refused why ↔ step s = .refused why

/-! ## Round trips and streams -/

/-- 41_decoder_fast.md R143: what `ENC` wrote, `DECF` returns, in any later state that still holds the chunk's bytes;
and `ENC` of what `DECF` returned writes the chunk `DECF` read. -/
def Obligations.EncThenDecfReturnsTheValue : Prop :=
  (∀ (s t u : State) (v : U64) (a len : Nat), exec (.enc v a) s = .next t → t.result = some (.enc len) →
    t.mem.AgreeOn u.mem a (a + len) → u.DecfAdmitted a →
    exec (.decf a) u = .next { u with result := some (.decf v len) }) ∧
  ∀ (s t u w : State) (v x : U64) (a d len : Nat), s.mem.Holds a (encBytes x) → exec (.decf a) s = .next t →
    t.result = some (.decf v len) → exec (.enc v d) u = .next w →
    w.result = some (.enc len) ∧ ∀ n, n < len → w.mem.readByte (d + n) = s.mem.readByte (a + n)

/-- 42_decoder_safe.md R159: what `ENC` wrote, `DECS` returns, for every window that holds the chunk. -/
def Obligations.EncThenDecsReturnsTheValue : Prop :=
  ∀ (s t u : State) (v : U64) (a e len : Nat), exec (.enc v a) s = .next t → t.result = some (.enc len) →
    t.mem.AgreeOn u.mem a (a + len) → a + len ≤ e → u.DecsAdmitted a e →
    SucceedsWith u v (a + len) (exec (.decs a e) u)

/-- 45_stream.md R171, R174: an append completes when the buffer reaches to the end of the last window, 9 bytes from
where the last chunk starts; it ends past the last chunk, leaves exactly the stream's bytes, and touches nothing below
it nor past the last window. -/
def Obligations.AppendWritesTheStream : Prop :=
  ∀ (vs : List U64) (p : Nat) (s : State),
    (∀ x, p ≤ x → x < appendPast vs p → s.WritableAt x ∧ ¬ s.DeviceAt x ∧ ¬ s.UsedAt x) →
    ∃ t, appendStream vs p s = .next (p + (streamBytes vs).length, t) ∧ t.mem.Holds p (streamBytes vs) ∧
      t.mem.AgreeOutside s.mem p (appendPast vs p) ∧
      (t.cfg, t.readable, t.writable, t.devices, t.busy, t.port, t.reader, t.resetPending) =
        (s.cfg, s.readable, s.writable, s.devices, s.busy, s.port, s.reader, s.resetPending)

/-- 45_stream.md R178: a stream that was appended reads back, value by value, with either decoder, and the walk ends
exactly at the end of the stream. -/
def Obligations.StreamRoundTrip : Prop :=
  ∀ (vs : List U64) (p q : Nat) (s t u : State), appendStream vs p s = .next (q, t) → t.mem.AgreeOn u.mem p q →
    (u.DecsAdmitted p q → ∃ w, walkWindow p q u = .next ⟨vs, q, none, w⟩) ∧
    (u.ReadAdmitted p (q + 8) → ∃ w, walkFast vs.length p u = .next ⟨vs, q, none, w⟩)

/-- 45_stream.md R177: if the window ends inside a chunk, the walk yields the whole chunks before it and then reports
`E_TRUNCATED` with the cursor at the start of the cut chunk. -/
def Obligations.WalkOfACutStream : Prop :=
  ∀ (vs : List U64) (v : U64) (p cut : Nat) (u : State),
    u.mem.Holds p (streamBytes vs ++ (encBytes v).take cut) → 0 < cut → cut < (encBytes v).length →
    u.DecsAdmitted p (p + (streamBytes vs).length + cut) →
    ∃ w, walkWindow p (p + (streamBytes vs).length + cut) u = .next
      ⟨vs, p + (streamBytes vs).length, some (reportCause u.cfg.errDetail .eTruncated), w⟩ ∧ w.mem = u.mem

/-- 30_encoding.md R84, 45_stream.md R173: the pseudo-operations are the operation and one addition or subtraction. -/
def Obligations.PseudoOperationsConvert : Prop :=
  (∀ (s t : State) (v : U64) (dest len : Nat), exec (.enc v dest) s = .next t → t.result = some (.enc len) →
    execEncP v dest s = .next (t, some (dest + len))) ∧
  (∀ (s t : State) (v : U64) (src len : Nat), exec (.decf src) s = .next t → t.result = some (.decf v len) →
    execDecfP src s = .next (t, some (src + len))) ∧
  (∀ (s t : State) (v : U64) (b e newBegin : Nat), exec (.decs b e) s = .next t →
    t.result = some (.decs .ok v newBegin) → execDecsN b e s = .next (t, some (newBegin - b)) ∧ b < newBegin) ∧
  ∀ (s t : State) (c : Status) (v : U64) (b e newBegin : Nat), exec (.decs b e) s = .next t →
    t.result = some (.decs c v newBegin) → c ≠ .ok → execDecsN b e s = .next (t, none)

/-! ## Memory -/

/-- 20_memory.md R42, R43: a `MemWrite` sets its bytes little-endian and no other, and a `MemRead` of them returns
the integer stored. -/
def Obligations.MemWriteThenMemRead : Prop :=
  ∀ (m : Memory) (a n : Nat) (v : U64), n ≤ 8 → v.toNat < 2 ^ (8 * n) →
    (∀ j, j < n → (m.memWrite a n v).readByte (a + j) = v.extractLsb' (8 * j) 8) ∧
      (m.memWrite a n v).AgreeOutside m a (a + n) ∧ (m.memWrite a n v).memRead a n = v

/-- 20_memory.md R44: a 1-byte read returns bits 7..0 of what an 8-byte read of the same address returns. -/
def Obligations.FirstByteIsTheLowByte : Prop :=
  ∀ (m : Memory) (a : Nat), m.memRead a 1 = ((m.memRead a 8).extractLsb' 0 8).setWidth 64

/-- 20_memory.md R50: only `ENC` writes memory. -/
def Obligations.DecodersWriteNoMemory : Prop :=
  ∀ (i : Instr) (s t : State), isEnc i = false → exec i s = .next t → t.mem = s.mem

/-- 20_memory.md R50: `ENC` reads no memory: its length and what it stores at `dest .. dest+7` do not depend on it. -/
def Obligations.EncReadsNoMemory : Prop :=
  ∀ (s t : State) (m : Memory) (v : U64) (dest : Nat), exec (.enc v dest) s = .next t →
    ∃ t', exec (.enc v dest) { s with mem := m } = .next t' ∧ t'.result = t.result ∧
      t.mem.AgreeOn t'.mem dest (dest + 8)

/-! ## The whole machine -/

/-- The invariant holds after reset. -/
def Obligations.ResetHasTheInvariant : Prop := State.reset.inv = true

/-- Every step keeps the invariant: the canonical form of memory, no byte stored outside the address space, open
bytes drawn already, result fields in their ranges, the caller's window inside the address space (10_state.md R27;
20_memory.md R40; 00_scope.md R17).
The draws are the model's (log 7), and so is a cursor past the last address (log 17). -/
def Obligations.StepKeepsTheInvariant : Prop :=
  ∀ s t : State, s.inv = true → step s = .next t → t.inv = true

/-- No step changes the launch parameters: the parameters of 00_scope.md R5, the grants and the devices
(20_memory.md R54), and the claims of other agents. -/
def Obligations.StepKeepsTheLaunch : Prop :=
  ∀ s t : State, step s = .next t →
    (t.cfg, t.readable, t.writable, t.devices, t.busy) = (s.cfg, s.readable, s.writable, s.devices, s.busy)

/-- 10_state.md R20: an operation's result, and every byte it does not leave open, are functions of its operands and
of what the codec can see, whatever ran before. -/
def Obligations.OperationsForgetThePast : Prop :=
  ∀ (i : Instr) (s t s' : State), isChunk i = false → s.SameForCodec t → exec i s = .next s' →
    ∃ t', exec i t = .next t' ∧ meaningOf t'.result = meaningOf s'.result ∧
      ∀ x, ¬ LeftOpen s.cfg i x → t'.mem.readByte x = s'.mem.readByte x

/-- 20_memory.md R57 (b): operations that do not conflict commute: where one order completes so does the other, with
the same results and the same memory, but for bytes an `ENC` leaves open. -/
def Obligations.NonConflictingOperationsCommute : Prop :=
  ∀ (i j : Instr) (s si sij : State), isChunk i = false → isChunk j = false → ¬ Conflict i j →
    exec i s = .next si → exec j si = .next sij →
    ∃ sj sji, exec j s = .next sj ∧ exec i sj = .next sji ∧
    meaningOf si.result = meaningOf sji.result ∧ meaningOf sj.result = meaningOf sij.result ∧
      ∀ x, ¬ LeftOpen s.cfg i x → ¬ LeftOpen s.cfg j x → sij.mem.readByte x = sji.mem.readByte x

/-- 60_exceptions.md R195 `ALIASING`, 20_memory.md R57 (c): an operation whose window another agent uses in conflict
is not run: it is refused. -/
def Obligations.AliasedOperationsAreRefused : Prop :=
  ∀ (s : State) (x : Nat),
    (∀ v dest, dest ≤ x → x < dest + 9 → s.UsedAt x → ∃ why, exec (.enc v dest) s = .refused why) ∧
    (∀ src, src ≤ x → x < src + 9 → s.WrittenAt x → ∃ why, exec (.decf src) s = .refused why) ∧
    ∀ b e, b ≤ x → x < e → s.WrittenAt x → ∃ why, exec (.decs b e) s = .refused why

/-- 70_reset_and_hazards.md R221: an `ENC` cut off by reset delivers no result and leaves its nine bytes open, every
one a fresh draw; nothing else changes.
The numbering of draws is the model's (log 7), and so is that the port keeps its other commands through the reset
(log 12). -/
def Obligations.ResetCutsOffAnEnc : Prop :=
  ∀ (s : State) (w : Nat) (ws : List Nat) (v : U64) (dest : Nat), s.resetPending = true → s.port = w :: ws →
    decodeCommand s.cfg.aw w = .ok (.enc v dest) → s.EncAdmitted dest →
    ∃ t, step s = .next t ∧ t = { s with
        mem := t.mem, port := ws, resetPending := false, result := none, draws := s.draws + 9 } ∧
      (∀ n, n < 9 → t.mem.readByte (dest + n) = Config.anyByte (s.draws + n)) ∧
      t.mem.AgreeOutside s.mem dest (dest + 9)

/-- 70_reset_and_hazards.md R221: a decoder cut off by reset delivers no result and changes nothing, be it a command
of the port or the decode at the cursor of a walk.
That the port keeps its other commands through the reset, and a walk its cursor, is the model's choice (log 12). -/
def Obligations.ResetCutsOffADecoder : Prop :=
  (∀ (s u : State) (w : Nat) (ws : List Nat) (i : Instr), s.resetPending = true → s.port = w :: ws →
    decodeCommand s.cfg.aw w = .ok i → isEnc i = false → exec i { s with port := ws } = .next u →
    step s = .next { s with port := ws, resetPending := false, result := none }) ∧
  ∀ s u : State, s.resetPending = true → s.port = [] → s.reader.walking = true → s.reader.begin_ < s.reader.end_ →
    step { s with resetPending := false } = .next u → step s = .next { s with resetPending := false, result := none }

/-- 10_state.md R32, 70_reset_and_hazards.md R220: after a reset no result field carries a value, and a reset of a
codec that has nothing to do changes nothing else. -/
def Obligations.ResetLeavesNoResult : Prop :=
  State.reset.result = none ∧
    ∀ s : State, s.resetPending = true →
      (∀ t, step s = .next t → t.result = none ∧ t.resetPending = false) ∧
      (s.port = [] → s.reader.walking = false → step s = .next { s with resetPending := false, result := none })

/-! ## Splitting a stream -/

/-- 45_stream.md R171, 40_encoder.md R114 (b): a stream of chunks, canonical or not, splits into exactly those chunks
and into no others. -/
def Obligations.StreamSplitsInOneWay : Prop :=
  ∀ (bs : List Byte) (cs : List Instr),
    splitStream bs = .ok cs ↔ (∀ i ∈ cs, isChunk i = true) ∧ bs = cs.flatMap encodeChunk
end

