-- ==== Sys2Proof/Laws/Bits.lean ====
section
/-! SUPPORT. What the primitives of Machine/Bits.lean compute, as integers. -/

namespace Sys2Proof.Machine

/-! ## Little-endian bytes -/

@[simp] theorem leBytes_zero (w : Nat) : leBytes 0 w = [] := rfl

@[simp] theorem leInt_nil : leInt [] = 0 := rfl

@[simp] theorem length_leBytes (n w : Nat) : (leBytes n w).length = n := by
  induction n generalizing w with
  | zero => rfl
  | succ n ih => simp [leBytes, ih]

theorem leInt_lt (bs : List Byte) : leInt bs < 256 ^ bs.length := by
  induction bs with
  | nil => simp
  | cons b bs ih =>
    have hb := b.isLt
    simp only [leInt, List.length_cons, pow_succ]
    omega

/-- The two conversions of 00_scope.md R15 are inverse on integers that fit. -/
theorem leInt_leBytes (n w : Nat) : leInt (leBytes n w) = w % 256 ^ n := by
  induction n generalizing w with
  | zero => simp [Nat.mod_one]
  | succ n ih =>
    simp only [leBytes, leInt, ih, BitVec.toNat_ofNat]
    have h : w % (256 * 256 ^ n) = w % 256 + 256 * (w / 256 % 256 ^ n) := Nat.mod_mul
    rw [pow_succ' 256 n, h]

theorem leInt_leBytes_of_lt {n w : Nat} (h : w < 256 ^ n) : leInt (leBytes n w) = w := by
  rw [leInt_leBytes, Nat.mod_eq_of_lt h]

/-- The two conversions of 00_scope.md R15 are inverse on bytes. -/
theorem leBytes_leInt (bs : List Byte) : leBytes bs.length (leInt bs) = bs := by
  induction bs with
  | nil => rfl
  | cons b bs ih =>
    have hb := b.isLt
    have hd : (b.toNat + 256 * leInt bs) / 256 = leInt bs := by omega
    have hm : BitVec.ofNat 8 (b.toNat + 256 * leInt bs) = b := by
      apply BitVec.eq_of_toNat_eq
      simp only [BitVec.toNat_ofNat]
      omega
    simp only [List.length_cons, leBytes, leInt, hd, hm, ih]

theorem leInt_append (as bs : List Byte) : leInt (as ++ bs) = leInt as + 256 ^ as.length * leInt bs := by
  induction as with
  | nil => simp
  | cons a as ih =>
    simp only [List.cons_append, leInt, ih, List.length_cons, pow_succ]
    ring

theorem leInt_take (bs : List Byte) (n : Nat) : leInt (bs.take n) = leInt bs % 256 ^ n := by
  induction bs generalizing n with
  | nil => simp
  | cons b bs ih =>
    cases n with
    | zero => simp [Nat.mod_one]
    | succ n =>
      have hb := b.isLt
      simp only [List.take_succ_cons, leInt, ih]
      have h : (b.toNat + 256 * leInt bs) % (256 * 256 ^ n) =
          (b.toNat + 256 * leInt bs) % 256 + 256 * ((b.toNat + 256 * leInt bs) / 256 % 256 ^ n) := Nat.mod_mul
      have hd : (b.toNat + 256 * leInt bs) / 256 = leInt bs := by omega
      rw [pow_succ' 256 n, h, hd]
      omega

theorem leBytes_take (n m w : Nat) (h : m ≤ n) : (leBytes n w).take m = leBytes m w := by
  induction m generalizing n w with
  | zero => simp
  | succ m ih =>
    obtain ⟨n', rfl⟩ : ∃ n', n = n' + 1 := ⟨n - 1, by omega⟩
    simp only [leBytes, List.take_succ_cons]
    rw [ih _ _ (by omega)]

/-! ## Shifts and masks -/

theorem shr64_toNat (a : U64) (n : Nat) : (shr64 a n).toNat = a.toNat / 2 ^ n := by
  simp [shr64, BitVec.toNat_ushiftRight, Nat.shiftRight_eq_div_pow]

theorem shl64_toNat (a : U64) (n : Nat) : (shl64 a n).toNat = a.toNat * 2 ^ n % 2 ^ 64 := by
  simp [shl64, BitVec.toNat_shiftLeft, Nat.shiftLeft_eq]

/-- The mask is `2^n - 1` also at 64 (70_reset_and_hazards.md R231). -/
theorem maskLow_toNat {n : Nat} (h : n ≤ 64) : (maskLow n).toNat = 2 ^ n - 1 := by
  have h1 : 2 ^ n ≤ 2 ^ 64 := Nat.pow_le_pow_right (by omega) h
  have h2 : 0 < 2 ^ n := Nat.two_pow_pos n
  simp only [maskLow, BitVec.toNat_ofNat]
  exact Nat.mod_eq_of_lt (by omega)

theorem and_maskLow_toNat (a : U64) {n : Nat} (h : n ≤ 64) : (a &&& maskLow n).toNat = a.toNat % 2 ^ n := by
  rw [BitVec.toNat_and, maskLow_toNat h, Nat.and_two_pow_sub_one_eq_mod]

/-! ## Bit scans -/

theorem msbBelow_le (x : U64) (n : Nat) : msbBelow x n ≤ n := by
  induction n with
  | zero => simp [msbBelow]
  | succ n ih =>
    simp only [msbBelow]
    split <;> omega

theorem msbBelow_log2 (x : U64) (n : Nat) (hx : x.toNat < 2 ^ (n + 1)) : msbBelow x n = Nat.log2 x.toNat := by
  induction n with
  | zero =>
    have : x.toNat = 0 ∨ x.toNat = 1 := by omega
    rcases this with h | h <;> rw [h] <;> rfl
  | succ n ih =>
    simp only [msbBelow]
    by_cases hb : x.getLsbD (n + 1)
    · rw [if_pos hb]
      have hge : 2 ^ (n + 1) ≤ x.toNat := by
        by_contra hlt
        have := Nat.testBit_lt_two_pow (by omega : x.toNat < 2 ^ (n + 1))
        simp [BitVec.getLsbD, this] at hb
      exact ((Nat.log2_eq_iff (by have := Nat.two_pow_pos (n + 1); omega)).2 ⟨hge, hx⟩).symm
    · rw [if_neg hb]
      apply ih
      have hb' : x.toNat.testBit (n + 1) = false := by simpa [BitVec.getLsbD] using hb
      by_contra hge
      have hge' : 2 ^ (n + 1) ≤ x.toNat := by omega
      have := Nat.testBit_eq_decide_div_mod_eq (x := x.toNat) (i := n + 1)
      rw [hb'] at this
      have hd : x.toNat / 2 ^ (n + 1) = 1 := by
        apply Nat.div_eq_of_lt_le
        · simpa using hge'
        · rw [pow_succ] at hx; omega
      simp [hd] at this

/-- The scan is the integer logarithm (00_scope.md R11). -/
theorem msb64_eq_log2 (x : U64) : msb64 x = Nat.log2 x.toNat := msbBelow_log2 x 63 x.isLt

/-- The scan finds the class of a non-zero word (00_scope.md R11). -/
theorem msb64_bounds {x : U64} (h : x ≠ 0) : 2 ^ msb64 x ≤ x.toNat ∧ x.toNat < 2 ^ (msb64 x + 1) := by
  rw [msb64_eq_log2]
  have h0 : x.toNat ≠ 0 := fun h' => h (BitVec.eq_of_toNat_eq (by simpa using h'))
  exact (Nat.log2_eq_iff h0).1 rfl

theorem lsb8_le (b : Byte) : lsb8 b ≤ 7 := by
  simp only [lsb8]
  split_ifs <;> omega

/-- The scan finds the lowest set bit of a non-zero byte (00_scope.md R12). -/
theorem lsb8_spec (b : Byte) (h : b ≠ 0) : b.toNat % 2 ^ (lsb8 b + 1) = 2 ^ lsb8 b := by
  revert b
  decide

end Sys2Proof.Machine
end

