-- ==== Sys2Proof/Laws/Memory.lean ====
section
/-! SUPPORT. The memory: read after write, and the canonical form that every operation keeps. -/

namespace Sys2Proof.Machine

variable {α : Type}

/-! ## Lists of address and datum -/

theorem lookupAt_putAt_same (l : List (Nat × α)) (a : Nat) (y : α) : lookupAt (putAt l a y) a = some y := by
  induction l with
  | nil => simp [putAt, lookupAt]
  | cons p t ih =>
    obtain ⟨k, x⟩ := p
    simp only [putAt]
    split_ifs with h1 h2
    · simp [lookupAt]
    · simp [lookupAt]
    · simp [lookupAt, h2, ih]

theorem lookupAt_putAt_other (l : List (Nat × α)) {a c : Nat} (y : α) (h : c ≠ a) :
    lookupAt (putAt l a y) c = lookupAt l c := by
  induction l with
  | nil => simp [putAt, lookupAt, h]
  | cons p t ih =>
    obtain ⟨k, x⟩ := p
    simp only [putAt]
    split_ifs with h1 h2
    · simp [lookupAt, h]
    · subst h2
      simp [lookupAt, h]
    · simp [lookupAt, ih]

theorem lookupAt_dropAt_same (l : List (Nat × α)) (a : Nat) : lookupAt (dropAt l a) a = none := by
  induction l with
  | nil => rfl
  | cons p t ih =>
    obtain ⟨k, x⟩ := p
    simp only [dropAt]
    split_ifs with h
    · exact ih
    · simp [lookupAt, h, ih]

theorem lookupAt_dropAt_other (l : List (Nat × α)) {a c : Nat} (h : c ≠ a) :
    lookupAt (dropAt l a) c = lookupAt l c := by
  induction l with
  | nil => rfl
  | cons p t ih =>
    obtain ⟨k, x⟩ := p
    simp only [dropAt]
    split_ifs with h1
    · subst h1
      simp [lookupAt, h, ih]
    · simp [lookupAt, ih]

theorem mem_putAt {l : List (Nat × α)} {a : Nat} {y : α} {p : Nat × α} (h : p ∈ putAt l a y) :
    p = (a, y) ∨ p ∈ l := by
  induction l with
  | nil => simpa [putAt] using h
  | cons q t ih =>
    obtain ⟨k, x⟩ := q
    simp only [putAt] at h
    split_ifs at h with h1 h2
    · simpa using h
    · simp only [List.mem_cons] at h ⊢
      rcases h with h | h
      · exact .inl h
      · exact .inr (.inr h)
    · simp only [List.mem_cons] at h ⊢
      rcases h with h | h
      · exact .inr (.inl h)
      · exact (ih h).imp_right .inr

theorem mem_dropAt {l : List (Nat × α)} {a : Nat} {p : Nat × α} (h : p ∈ dropAt l a) : p ∈ l ∧ p.1 ≠ a := by
  induction l with
  | nil => simp [dropAt] at h
  | cons q t ih =>
    obtain ⟨k, x⟩ := q
    simp only [dropAt] at h
    split_ifs at h with h1
    · exact ⟨.tail _ (ih h).1, (ih h).2⟩
    · rcases List.mem_cons.1 h with rfl | h
      · exact ⟨.head _, fun e => h1 e.symm⟩
      · exact ⟨.tail _ (ih h).1, (ih h).2⟩

theorem rising_cons (k : Nat) (x : α) (t : List (Nat × α)) :
    rising ((k, x) :: t) = true ↔ (∀ p ∈ t, k < p.1) ∧ rising t = true := by
  simp [rising]

theorem rising_putAt {l : List (Nat × α)} (h : rising l = true) (a : Nat) (y : α) : rising (putAt l a y) = true := by
  induction l with
  | nil => simp [putAt, rising]
  | cons p t ih =>
    obtain ⟨k, x⟩ := p
    obtain ⟨hk, ht⟩ := (rising_cons k x t).1 h
    simp only [putAt]
    split_ifs with h1 h2
    · refine (rising_cons a y _).2 ⟨fun p hp => ?_, h⟩
      rcases List.mem_cons.1 hp with rfl | hp
      · exact h1
      · exact h1.trans (hk p hp)
    · exact (rising_cons a y t).2 ⟨fun p hp => h2 ▸ hk p hp, ht⟩
    · refine (rising_cons k x _).2 ⟨fun p hp => ?_, ih ht⟩
      rcases mem_putAt hp with rfl | hp
      · simp only; omega
      · exact hk p hp

theorem rising_dropAt {l : List (Nat × α)} (h : rising l = true) (a : Nat) : rising (dropAt l a) = true := by
  induction l with
  | nil => rfl
  | cons p t ih =>
    obtain ⟨k, x⟩ := p
    obtain ⟨hk, ht⟩ := (rising_cons k x t).1 h
    simp only [dropAt]
    split_ifs with h1
    · exact ih ht
    · exact (rising_cons k x _).2 ⟨fun p hp => hk p (mem_dropAt hp).1, ih ht⟩

/-! ## One byte -/

@[simp] theorem readByte_writeByte_same (m : Memory) (a : Nat) (b : Byte) : (m.writeByte a b).readByte a = b := by
  simp only [Memory.readByte, Memory.writeByte, lookupAt_dropAt_same]
  split_ifs with h
  · simp [lookupAt_dropAt_same, h]
  · simp [lookupAt_putAt_same]

theorem readByte_writeByte_other (m : Memory) {a c : Nat} (b : Byte) (h : c ≠ a) :
    (m.writeByte a b).readByte c = m.readByte c := by
  simp only [Memory.readByte, Memory.writeByte, lookupAt_dropAt_other _ h]
  split_ifs
  · rw [lookupAt_dropAt_other _ h]
  · rw [lookupAt_putAt_other _ _ h]

@[simp] theorem readByte_writeAny_same (m : Memory) (a n : Nat) : (m.writeAny a n).readByte a = Config.anyByte n := by
  simp [Memory.readByte, Memory.writeAny, lookupAt_putAt_same]

theorem readByte_writeAny_other (m : Memory) {a c : Nat} (n : Nat) (h : c ≠ a) :
    (m.writeAny a n).readByte c = m.readByte c := by
  simp only [Memory.readByte, Memory.writeAny, lookupAt_putAt_other _ _ h, lookupAt_dropAt_other _ h]

/-! ## Runs of bytes -/

@[simp] theorem length_readBytes (m : Memory) (a n : Nat) : (m.readBytes a n).length = n := by
  induction n generalizing a with
  | zero => rfl
  | succ n ih => simp [Memory.readBytes, ih]

theorem getElem_readBytes (m : Memory) (a n i : Nat) (h : i < (m.readBytes a n).length) :
    (m.readBytes a n)[i] = m.readByte (a + i) := by
  induction n generalizing a i with
  | zero => simp at h
  | succ n ih =>
    cases i with
    | zero => rfl
    | succ i =>
      have h' : i < (m.readBytes (a + 1) n).length := by simpa [Memory.readBytes] using h
      simp only [Memory.readBytes, List.getElem_cons_succ]
      rw [ih (a + 1) i h', Nat.add_right_comm, Nat.add_assoc]

theorem readBytes_congr {m m' : Memory} {a n : Nat}
    (h : ∀ x, a ≤ x → x < a + n → m.readByte x = m'.readByte x) : m.readBytes a n = m'.readBytes a n := by
  induction n generalizing a with
  | zero => rfl
  | succ n ih =>
    simp only [Memory.readBytes]
    rw [h a (by omega) (by omega), ih (fun x h1 h2 => h x (by omega) (by omega))]

theorem readByte_writeBytes_outside (m : Memory) (a : Nat) (bs : List Byte) {c : Nat}
    (h : c < a ∨ a + bs.length ≤ c) : (m.writeBytes a bs).readByte c = m.readByte c := by
  induction bs generalizing m a with
  | nil => rfl
  | cons b bs ih =>
    simp only [List.length_cons] at h
    simp only [Memory.writeBytes]
    rw [ih _ _ (by omega), readByte_writeByte_other _ _ (by omega)]

theorem readByte_writeBytes_inside (m : Memory) (a : Nat) (bs : List Byte) (i : Nat) (h : i < bs.length) :
    (m.writeBytes a bs).readByte (a + i) = bs[i] := by
  induction bs generalizing m a i with
  | nil => simp at h
  | cons b bs ih =>
    simp only [Memory.writeBytes]
    cases i with
    | zero =>
      rw [readByte_writeBytes_outside _ _ _ (by omega)]
      simp
    | succ i =>
      have h' : i < bs.length := by simpa using h
      rw [show a + (i + 1) = a + 1 + i by omega, ih _ _ _ h']
      rfl

theorem readBytes_writeBytes (m : Memory) (a : Nat) (bs : List Byte) :
    (m.writeBytes a bs).readBytes a bs.length = bs := by
  apply List.ext_getElem (by simp)
  intro i h1 h2
  rw [getElem_readBytes, readByte_writeBytes_inside _ _ _ _ h2]

theorem readByte_writeAnys_outside (m : Memory) (a n d : Nat) {c : Nat} (h : c < a ∨ a + n ≤ c) :
    (m.writeAnys a n d).readByte c = m.readByte c := by
  induction n generalizing m a d with
  | zero => rfl
  | succ n ih =>
    simp only [Memory.writeAnys]
    rw [ih _ _ _ (by omega), readByte_writeAny_other _ _ (by omega)]

/-- Each byte of the run is the draw of its own number. -/
theorem readByte_writeAnys_inside (m : Memory) (a n d i : Nat) (h : i < n) :
    (m.writeAnys a n d).readByte (a + i) = Config.anyByte (d + i) := by
  induction n generalizing m a d i with
  | zero => omega
  | succ n ih =>
    simp only [Memory.writeAnys]
    cases i with
    | zero =>
      rw [readByte_writeAnys_outside _ _ _ _ (by omega)]
      simp
    | succ i =>
      rw [show a + (i + 1) = a + 1 + i by omega, ih _ _ _ _ (by omega)]
      congr 1
      omega

/-! ## The canonical form -/

theorem Memory.wf_iff (m : Memory) : m.wf = true ↔
    rising m.cells = true ∧ rising m.free = true ∧ (∀ p ∈ m.cells, p.2 ≠ Config.unwritten) ∧
      ∀ p ∈ m.cells, lookupAt m.free p.1 = none := by
  simp [Memory.wf, and_assoc]

theorem Memory.empty_wf : Memory.empty.wf = true := rfl

theorem Memory.writeByte_wf {m : Memory} (h : m.wf = true) (a : Nat) (b : Byte) : (m.writeByte a b).wf = true := by
  obtain ⟨h1, h2, h3, h4⟩ := m.wf_iff.1 h
  refine (Memory.wf_iff _).2 ⟨?_, rising_dropAt h2 a, ?_, ?_⟩
  · simp only [Memory.writeByte]
    split_ifs
    · exact rising_dropAt h1 a
    · exact rising_putAt h1 a b
  · simp only [Memory.writeByte]
    intro p hp
    split_ifs at hp with hb
    · exact h3 p (mem_dropAt hp).1
    · rcases mem_putAt hp with rfl | hp
      · exact hb
      · exact h3 p hp
  · simp only [Memory.writeByte]
    intro p hp
    by_cases hpa : p.1 = a
    · rw [hpa, lookupAt_dropAt_same]
    · rw [lookupAt_dropAt_other _ hpa]
      split_ifs at hp with hb
      · exact h4 p (mem_dropAt hp).1
      · rcases mem_putAt hp with rfl | hp
        · exact absurd rfl hpa
        · exact h4 p hp

theorem Memory.writeAny_wf {m : Memory} (h : m.wf = true) (a n : Nat) : (m.writeAny a n).wf = true := by
  obtain ⟨h1, h2, h3, h4⟩ := m.wf_iff.1 h
  refine (Memory.wf_iff _).2 ⟨rising_dropAt h1 a, rising_putAt h2 a n, ?_, ?_⟩
  · intro p hp
    exact h3 p (mem_dropAt hp).1
  · intro p hp
    simp only [Memory.writeAny]
    rw [lookupAt_putAt_other _ _ (mem_dropAt hp).2]
    exact h4 p (mem_dropAt hp).1

theorem Memory.writeBytes_wf {m : Memory} (h : m.wf = true) (a : Nat) (bs : List Byte) :
    (m.writeBytes a bs).wf = true := by
  induction bs generalizing m a with
  | nil => exact h
  | cons b bs ih => exact ih (Memory.writeByte_wf h a b) (a + 1)

theorem Memory.writeAnys_wf {m : Memory} (h : m.wf = true) (a n d : Nat) : (m.writeAnys a n d).wf = true := by
  induction n generalizing m a d with
  | zero => exact h
  | succ n ih => exact ih (Memory.writeAny_wf h a d) (a + 1) (d + 1)

theorem Memory.memWrite_wf {m : Memory} (h : m.wf = true) (a n : Nat) (v : U64) : (m.memWrite a n v).wf = true :=
  Memory.writeBytes_wf h a _

end Sys2Proof.Machine
end

