-- ==== Sys2Proof/Laws/Operands.lean ====
section
/-! SUPPORT. The admission checks decide the contract of Safety.lean. -/

namespace Sys2Proof.Machine

/-- The interval check is exactly "every address lies in some region". -/
theorem covers_iff (rs : List Region) (a e : Nat) :
    covers rs a e = true ↔ ∀ x, a ≤ x → x < e → ∃ r ∈ rs, r.holds x := by
  induction rs generalizing a e with
  | nil =>
    simp only [covers, decide_eq_true_eq, List.not_mem_nil, false_and, exists_false, imp_false]
    constructor
    · intro h x h1 h2
      omega
    · intro h
      by_contra hlt
      exact h a le_rfl (by omega)
  | cons r rs ih =>
    simp only [covers, Bool.or_eq_true, Bool.and_eq_true, decide_eq_true_eq, ih, List.mem_cons]
    constructor
    · rintro (h | ⟨hl, hr⟩) x h1 h2
      · omega
      · by_cases hb : x < r.base
        · obtain ⟨q, hq, hx⟩ := hl x h1 (by omega)
          exact ⟨q, .inr hq, hx⟩
        · by_cases hp : x < r.past
          · exact ⟨r, .inl rfl, by omega, hp⟩
          · obtain ⟨q, hq, hx⟩ := hr x (by omega) h2
            exact ⟨q, .inr hq, hx⟩
    · intro h
      refine .inr ⟨fun x h1 h2 => ?_, fun x h1 h2 => ?_⟩
      · obtain ⟨q, rfl | hq, hx⟩ := h x h1 (by omega)
        · exact absurd hx.1 (by omega)
        · exact ⟨q, hq, hx⟩
      · obtain ⟨q, rfl | hq, hx⟩ := h x (by omega) h2
        · exact absurd hx.2 (by omega)
        · exact ⟨q, hq, hx⟩

theorem grants_iff (s : State) (rs : List Region) (a e : Nat) :
    grants s rs a e = true ↔ ∀ x, a ≤ x → x < e → x < 2 ^ s.cfg.aw ∧ ∃ r ∈ rs, r.holds x := by
  simp only [grants, Bool.or_eq_true, Bool.and_eq_true, decide_eq_true_eq, covers_iff]
  constructor
  · rintro (h | ⟨h, hc⟩) x h1 h2
    · omega
    · exact ⟨by omega, hc x h1 h2⟩
  · intro h
    by_cases hae : e ≤ a
    · exact .inl hae
    · refine .inr ⟨?_, fun x h1 h2 => (h x h1 h2).2⟩
      have := (h (e - 1) (by omega) (by omega)).1
      omega

theorem sharesByte_iff (a e : Nat) (r : Region) :
    sharesByte a e r = true ↔ ∃ x, a ≤ x ∧ x < e ∧ r.holds x := by
  simp only [sharesByte, decide_eq_true_eq, Region.holds]
  constructor
  · intro h
    exact ⟨max a r.base, by omega, by omega, by omega, by omega⟩
  · rintro ⟨x, h1, h2, h3, h4⟩
    omega

theorem touchesDevice_iff (s : State) (a e : Nat) :
    touchesDevice s a e = true ↔ ∃ x, a ≤ x ∧ x < e ∧ s.DeviceAt x := by
  simp only [touchesDevice, List.any_eq_true, sharesByte_iff, State.DeviceAt]
  constructor
  · rintro ⟨r, hr, x, h1, h2, h3⟩
    exact ⟨x, h1, h2, r, hr, h3⟩
  · rintro ⟨x, h1, h2, r, hr, h3⟩
    exact ⟨r, hr, x, h1, h2, h3⟩

theorem conflicts_write_iff (s : State) (a e : Nat) :
    conflicts s true a e = true ↔ ∃ x, a ≤ x ∧ x < e ∧ s.UsedAt x := by
  simp only [conflicts, List.any_eq_true, Bool.true_or, Bool.true_and, sharesByte_iff, State.UsedAt]
  constructor
  · rintro ⟨c, hc, x, h1, h2, h3⟩
    exact ⟨x, h1, h2, c, hc, h3⟩
  · rintro ⟨x, h1, h2, c, hc, h3⟩
    exact ⟨c, hc, x, h1, h2, h3⟩

theorem conflicts_read_iff (s : State) (a e : Nat) :
    conflicts s false a e = true ↔ ∃ x, a ≤ x ∧ x < e ∧ s.WrittenAt x := by
  simp only [conflicts, List.any_eq_true, Bool.false_or, Bool.and_eq_true, sharesByte_iff, State.WrittenAt]
  constructor
  · rintro ⟨c, hc, hw, x, h1, h2, h3⟩
    exact ⟨x, h1, h2, c, hc, hw, h3⟩
  · rintro ⟨x, h1, h2, c, hc, hw, h3⟩
    exact ⟨c, hc, hw, x, h1, h2, h3⟩

theorem admit_none_iff (s : State) (out : Refusal) (g w : Bool) (a e : Nat) :
    admission s out g w a e = none ↔ g = true ∧ ¬ touchesDevice s a e = true ∧ ¬ conflicts s w a e = true := by
  simp only [admission]
  split_ifs <;> simp_all

/-- `ENC` is admitted exactly inside its contract (40_encoder.md R101). -/
theorem admitEnc_none_iff (s : State) (dest : Nat) : admitEnc s dest = none ↔ s.EncAdmitted dest := by
  rw [admitEnc, admit_none_iff, grants_iff, touchesDevice_iff, conflicts_write_iff]
  constructor
  · rintro ⟨h1, h2, h3⟩ x hx hx'
    exact ⟨h1 x hx hx', fun h => h2 ⟨x, hx, hx', h⟩, fun h => h3 ⟨x, hx, hx', h⟩⟩
  · intro h
    exact ⟨fun x hx hx' => (h x hx hx').1, fun ⟨x, hx, hx', h'⟩ => (h x hx hx').2.1 h',
      fun ⟨x, hx, hx', h'⟩ => (h x hx hx').2.2 h'⟩

theorem read_admit_none_iff (s : State) (out : Refusal) (a e : Nat) :
    admission s out (grants s s.readable a e) false a e = none ↔ s.ReadAdmitted a e := by
  rw [admit_none_iff, grants_iff, touchesDevice_iff, conflicts_read_iff]
  constructor
  · rintro ⟨h1, h2, h3⟩ x hx hx'
    exact ⟨h1 x hx hx', fun h => h2 ⟨x, hx, hx', h⟩, fun h => h3 ⟨x, hx, hx', h⟩⟩
  · intro h
    exact ⟨fun x hx hx' => (h x hx hx').1, fun ⟨x, hx, hx', h'⟩ => (h x hx hx').2.1 h',
      fun ⟨x, hx, hx', h'⟩ => (h x hx hx').2.2 h'⟩

/-- `DECF` passes the window check exactly inside its contract (41_decoder_fast.md R131 a). -/
theorem admitDecf_none_iff (s : State) (src : Nat) : admitDecf s src = none ↔ s.DecfAdmitted src :=
  read_admit_none_iff s .decfWindow src (src + 9)

/-- `DECS` is admitted exactly inside its contract (42_decoder_safe.md R151). -/
theorem admitDecs_none_iff (s : State) (b e : Nat) : admitDecs s b e = none ↔ s.DecsAdmitted b e := by
  rw [State.DecsAdmitted, ← read_admit_none_iff s .decsWindow, admitDecs, admit_none_iff, admit_none_iff]
  simp only [boundsLegal, Bool.and_eq_true, decide_eq_true_eq]
  tauto

/-- What a refused admission can say. -/
theorem admit_some {s : State} {out why : Refusal} {g w : Bool} {a e : Nat} (h : admission s out g w a e = some why) :
    (g = false ∧ why = out) ∨ (g = true ∧ touchesDevice s a e = true ∧ why = .deviceWindow) ∨
      (g = true ∧ conflicts s w a e = true ∧ why = .aliasing) := by
  simp only [admission] at h
  split_ifs at h <;> simp_all

/-- The checks read the launch parameters and the claims only. -/
theorem admit_congr {s t : State} (hc : t.cfg = s.cfg) (hd : t.devices = s.devices) (hb : t.busy = s.busy)
    (out : Refusal) (rs : List Region) (w : Bool) (a e : Nat) :
    admission t out (grants t rs a e) w a e = admission s out (grants s rs a e) w a e := by
  simp [admission, grants, touchesDevice, conflicts, hc, hd, hb]

end Sys2Proof.Machine
end

