-- ==== Sys2Proof/Laws/State.lean ====
section
/-! SUPPORT. One lemma per field per update of State, so that no proof unfolds a record update. -/

namespace Sys2Proof.Machine

variable (s : State)

/-! ## withMem -/

@[simp] theorem State.withMem_cfg (m : Memory) : (s.withMem m).cfg = s.cfg := rfl
@[simp] theorem State.withMem_mem (m : Memory) : (s.withMem m).mem = m := rfl
@[simp] theorem State.withMem_readable (m : Memory) : (s.withMem m).readable = s.readable := rfl
@[simp] theorem State.withMem_writable (m : Memory) : (s.withMem m).writable = s.writable := rfl
@[simp] theorem State.withMem_devices (m : Memory) : (s.withMem m).devices = s.devices := rfl
@[simp] theorem State.withMem_busy (m : Memory) : (s.withMem m).busy = s.busy := rfl
@[simp] theorem State.withMem_port (m : Memory) : (s.withMem m).port = s.port := rfl
@[simp] theorem State.withMem_reader (m : Memory) : (s.withMem m).reader = s.reader := rfl
@[simp] theorem State.withMem_resetPending (m : Memory) : (s.withMem m).resetPending = s.resetPending := rfl
@[simp] theorem State.withMem_result (m : Memory) : (s.withMem m).result = s.result := rfl
@[simp] theorem State.withMem_draws (m : Memory) : (s.withMem m).draws = s.draws := rfl

/-! ## withResult -/

@[simp] theorem State.withResult_cfg (r : Option Result) : (s.withResult r).cfg = s.cfg := rfl
@[simp] theorem State.withResult_mem (r : Option Result) : (s.withResult r).mem = s.mem := rfl
@[simp] theorem State.withResult_readable (r : Option Result) : (s.withResult r).readable = s.readable := rfl
@[simp] theorem State.withResult_writable (r : Option Result) : (s.withResult r).writable = s.writable := rfl
@[simp] theorem State.withResult_devices (r : Option Result) : (s.withResult r).devices = s.devices := rfl
@[simp] theorem State.withResult_busy (r : Option Result) : (s.withResult r).busy = s.busy := rfl
@[simp] theorem State.withResult_port (r : Option Result) : (s.withResult r).port = s.port := rfl
@[simp] theorem State.withResult_reader (r : Option Result) : (s.withResult r).reader = s.reader := rfl
@[simp] theorem State.withResult_resetPending (r : Option Result) : (s.withResult r).resetPending = s.resetPending := rfl
@[simp] theorem State.withResult_result (r : Option Result) : (s.withResult r).result = r := rfl
@[simp] theorem State.withResult_draws (r : Option Result) : (s.withResult r).draws = s.draws := rfl

/-! ## skipDraws -/

@[simp] theorem State.skipDraws_cfg (n : Nat) : (s.skipDraws n).cfg = s.cfg := rfl
@[simp] theorem State.skipDraws_mem (n : Nat) : (s.skipDraws n).mem = s.mem := rfl
@[simp] theorem State.skipDraws_readable (n : Nat) : (s.skipDraws n).readable = s.readable := rfl
@[simp] theorem State.skipDraws_writable (n : Nat) : (s.skipDraws n).writable = s.writable := rfl
@[simp] theorem State.skipDraws_devices (n : Nat) : (s.skipDraws n).devices = s.devices := rfl
@[simp] theorem State.skipDraws_busy (n : Nat) : (s.skipDraws n).busy = s.busy := rfl
@[simp] theorem State.skipDraws_port (n : Nat) : (s.skipDraws n).port = s.port := rfl
@[simp] theorem State.skipDraws_reader (n : Nat) : (s.skipDraws n).reader = s.reader := rfl
@[simp] theorem State.skipDraws_resetPending (n : Nat) : (s.skipDraws n).resetPending = s.resetPending := rfl
@[simp] theorem State.skipDraws_result (n : Nat) : (s.skipDraws n).result = s.result := rfl
@[simp] theorem State.skipDraws_draws (n : Nat) : (s.skipDraws n).draws = s.draws + n := rfl

/-! ## withReader -/

@[simp] theorem State.withReader_cfg (r : Reader) : (s.withReader r).cfg = s.cfg := rfl
@[simp] theorem State.withReader_mem (r : Reader) : (s.withReader r).mem = s.mem := rfl
@[simp] theorem State.withReader_readable (r : Reader) : (s.withReader r).readable = s.readable := rfl
@[simp] theorem State.withReader_writable (r : Reader) : (s.withReader r).writable = s.writable := rfl
@[simp] theorem State.withReader_devices (r : Reader) : (s.withReader r).devices = s.devices := rfl
@[simp] theorem State.withReader_busy (r : Reader) : (s.withReader r).busy = s.busy := rfl
@[simp] theorem State.withReader_port (r : Reader) : (s.withReader r).port = s.port := rfl
@[simp] theorem State.withReader_reader (r : Reader) : (s.withReader r).reader = r := rfl
@[simp] theorem State.withReader_resetPending (r : Reader) : (s.withReader r).resetPending = s.resetPending := rfl
@[simp] theorem State.withReader_result (r : Reader) : (s.withReader r).result = s.result := rfl
@[simp] theorem State.withReader_draws (r : Reader) : (s.withReader r).draws = s.draws := rfl

/-! ## withPort -/

@[simp] theorem State.withPort_cfg (p : List Nat) : (s.withPort p).cfg = s.cfg := rfl
@[simp] theorem State.withPort_mem (p : List Nat) : (s.withPort p).mem = s.mem := rfl
@[simp] theorem State.withPort_readable (p : List Nat) : (s.withPort p).readable = s.readable := rfl
@[simp] theorem State.withPort_writable (p : List Nat) : (s.withPort p).writable = s.writable := rfl
@[simp] theorem State.withPort_devices (p : List Nat) : (s.withPort p).devices = s.devices := rfl
@[simp] theorem State.withPort_busy (p : List Nat) : (s.withPort p).busy = s.busy := rfl
@[simp] theorem State.withPort_port (p : List Nat) : (s.withPort p).port = p := rfl
@[simp] theorem State.withPort_reader (p : List Nat) : (s.withPort p).reader = s.reader := rfl
@[simp] theorem State.withPort_resetPending (p : List Nat) : (s.withPort p).resetPending = s.resetPending := rfl
@[simp] theorem State.withPort_result (p : List Nat) : (s.withPort p).result = s.result := rfl
@[simp] theorem State.withPort_draws (p : List Nat) : (s.withPort p).draws = s.draws := rfl

/-! ## withResetPending -/

@[simp] theorem State.withResetPending_cfg (b : Bool) : (s.withResetPending b).cfg = s.cfg := rfl
@[simp] theorem State.withResetPending_mem (b : Bool) : (s.withResetPending b).mem = s.mem := rfl
@[simp] theorem State.withResetPending_readable (b : Bool) : (s.withResetPending b).readable = s.readable := rfl
@[simp] theorem State.withResetPending_writable (b : Bool) : (s.withResetPending b).writable = s.writable := rfl
@[simp] theorem State.withResetPending_devices (b : Bool) : (s.withResetPending b).devices = s.devices := rfl
@[simp] theorem State.withResetPending_busy (b : Bool) : (s.withResetPending b).busy = s.busy := rfl
@[simp] theorem State.withResetPending_port (b : Bool) : (s.withResetPending b).port = s.port := rfl
@[simp] theorem State.withResetPending_reader (b : Bool) : (s.withResetPending b).reader = s.reader := rfl
@[simp] theorem State.withResetPending_resetPending (b : Bool) : (s.withResetPending b).resetPending = b := rfl
@[simp] theorem State.withResetPending_result (b : Bool) : (s.withResetPending b).result = s.result := rfl
@[simp] theorem State.withResetPending_draws (b : Bool) : (s.withResetPending b).draws = s.draws := rfl

/-! ## moveCursor -/

@[simp] theorem State.moveCursor_cfg (a : Nat) : (s.moveCursor a).cfg = s.cfg := rfl
@[simp] theorem State.moveCursor_mem (a : Nat) : (s.moveCursor a).mem = s.mem := rfl
@[simp] theorem State.moveCursor_readable (a : Nat) : (s.moveCursor a).readable = s.readable := rfl
@[simp] theorem State.moveCursor_writable (a : Nat) : (s.moveCursor a).writable = s.writable := rfl
@[simp] theorem State.moveCursor_devices (a : Nat) : (s.moveCursor a).devices = s.devices := rfl
@[simp] theorem State.moveCursor_busy (a : Nat) : (s.moveCursor a).busy = s.busy := rfl
@[simp] theorem State.moveCursor_port (a : Nat) : (s.moveCursor a).port = s.port := rfl
@[simp] theorem State.moveCursor_reader (a : Nat) : (s.moveCursor a).reader = { s.reader with begin_ := a } := rfl
@[simp] theorem State.moveCursor_resetPending (a : Nat) : (s.moveCursor a).resetPending = s.resetPending := rfl
@[simp] theorem State.moveCursor_result (a : Nat) : (s.moveCursor a).result = s.result := rfl
@[simp] theorem State.moveCursor_draws (a : Nat) : (s.moveCursor a).draws = s.draws := rfl

/-! ## stopWalk -/

@[simp] theorem State.stopWalk_cfg : s.stopWalk.cfg = s.cfg := rfl
@[simp] theorem State.stopWalk_mem : s.stopWalk.mem = s.mem := rfl
@[simp] theorem State.stopWalk_readable : s.stopWalk.readable = s.readable := rfl
@[simp] theorem State.stopWalk_writable : s.stopWalk.writable = s.writable := rfl
@[simp] theorem State.stopWalk_devices : s.stopWalk.devices = s.devices := rfl
@[simp] theorem State.stopWalk_busy : s.stopWalk.busy = s.busy := rfl
@[simp] theorem State.stopWalk_port : s.stopWalk.port = s.port := rfl
@[simp] theorem State.stopWalk_reader : s.stopWalk.reader = { s.reader with walking := false } := rfl
@[simp] theorem State.stopWalk_resetPending : s.stopWalk.resetPending = s.resetPending := rfl
@[simp] theorem State.stopWalk_result : s.stopWalk.result = s.result := rfl
@[simp] theorem State.stopWalk_draws : s.stopWalk.draws = s.draws := rfl

/-! ## spoil -/

@[simp] theorem State.spoil_cfg (a n : Nat) : (s.spoil a n).cfg = s.cfg := rfl
@[simp] theorem State.spoil_mem (a n : Nat) : (s.spoil a n).mem = s.mem.writeAnys a n s.draws := rfl
@[simp] theorem State.spoil_readable (a n : Nat) : (s.spoil a n).readable = s.readable := rfl
@[simp] theorem State.spoil_writable (a n : Nat) : (s.spoil a n).writable = s.writable := rfl
@[simp] theorem State.spoil_devices (a n : Nat) : (s.spoil a n).devices = s.devices := rfl
@[simp] theorem State.spoil_busy (a n : Nat) : (s.spoil a n).busy = s.busy := rfl
@[simp] theorem State.spoil_port (a n : Nat) : (s.spoil a n).port = s.port := rfl
@[simp] theorem State.spoil_reader (a n : Nat) : (s.spoil a n).reader = s.reader := rfl
@[simp] theorem State.spoil_resetPending (a n : Nat) : (s.spoil a n).resetPending = s.resetPending := rfl
@[simp] theorem State.spoil_result (a n : Nat) : (s.spoil a n).result = s.result := rfl
@[simp] theorem State.spoil_draws (a n : Nat) : (s.spoil a n).draws = s.draws + n := rfl

end Sys2Proof.Machine
end

