-- ==== Sys2Proof/Laws/Exec.lean ====
section
/-! SUPPORT. One lemma per meaning: what it answers inside the contract, and that a next state comes from nowhere else. -/

namespace Sys2Proof.Machine

/-! ## The guard -/

@[simp] theorem guarded_none (k : Host.Outcome State Fault Refusal) : guarded none k = k := rfl

@[simp] theorem guarded_some (why : Refusal) (k : Host.Outcome State Fault Refusal) :
    guarded (some why) k = .refused why := rfl

theorem guarded_next {r : Option Refusal} {k : Host.Outcome State Fault Refusal} {t : State}
    (h : guarded r k = .next t) : r = none ∧ k = .next t := by
  cases r with
  | none => exact ⟨rfl, h⟩
  | some why => simp at h

theorem guarded_refused {r : Option Refusal} {k : Host.Outcome State Fault Refusal} {why : Refusal}
    (h : guarded r k = .refused why) : r = some why ∨ r = none ∧ k = .refused why := by
  cases r with
  | none => exact .inr ⟨rfl, h⟩
  | some why' =>
    simp only [guarded_some, Host.Outcome.refused.injEq] at h
    exact .inl (congrArg some h)

/-! ## `ENC` -/

/-- The state `ENC` leaves. -/
abbrev encAfter (s : State) (value : U64) (dest : Nat) : State :=
  encTail ((s.withMem (encStore s.mem value dest)).withResult (some (.enc (encLen value)))) dest (encLen value)

theorem execEnc_of_admitted {s : State} {dest : Nat} (h : s.EncAdmitted dest) (value : U64) :
    execEnc value dest s = .next (encAfter s value dest) := by
  rw [execEnc, (admitEnc_none_iff s dest).2 h, guarded_none]

theorem execEnc_next {s t : State} {value : U64} {dest : Nat} (h : execEnc value dest s = .next t) :
    s.EncAdmitted dest ∧ t = encAfter s value dest := by
  obtain ⟨h1, h2⟩ := guarded_next h
  exact ⟨(admitEnc_none_iff s dest).1 h1, (Host.Outcome.next.inj h2).symm⟩

/-! ## `DECF` -/

theorem execDecf_of_admitted {s : State} {src : Nat} (h : s.DecfAdmitted src)
    (hv : decfContract s (validChunkAt s.mem src) = none) :
    execDecf src s = .next (s.withResult (some (.decf (decfValue s.mem src) (decfLen s.mem src)))) := by
  rw [execDecf, (admitDecf_none_iff s src).2 h, hv, guarded_none, guarded_none]

theorem execDecf_next {s t : State} {src : Nat} (h : execDecf src s = .next t) :
    s.DecfAdmitted src ∧ decfContract s (validChunkAt s.mem src) = none ∧
      t = s.withResult (some (.decf (decfValue s.mem src) (decfLen s.mem src))) := by
  obtain ⟨h1, h2⟩ := guarded_next h
  obtain ⟨h3, h4⟩ := guarded_next h2
  exact ⟨(admitDecf_none_iff s src).1 h1, h3, (Host.Outcome.next.inj h4).symm⟩

theorem decfContract_none_iff (s : State) (valid : Bool) :
    decfContract s valid = none ↔ valid = true ∨ s.cfg.decfOutside = .datapath := by
  unfold decfContract
  cases s.cfg.decfOutside <;> cases valid <;> simp

theorem decfContract_some {s : State} {valid : Bool} {why : Refusal} (h : decfContract s valid = some why) :
    why = .decfChunk ∧ valid = false ∧ s.cfg.decfOutside = .refuse := by
  unfold decfContract at h
  cases hd : s.cfg.decfOutside <;> cases valid <;> simp_all

/-! ## `DECS` -/

theorem execDecs_of_admitted {s : State} {b e : Nat} (h : s.DecsAdmitted b e) :
    execDecs b e s = .next (decsBody s b (e - b)) := by
  rw [execDecs, (admitDecs_none_iff s b e).2 h, guarded_none]

theorem execDecs_next {s t : State} {b e : Nat} (h : execDecs b e s = .next t) :
    s.DecsAdmitted b e ∧ t = decsBody s b (e - b) := by
  obtain ⟨h1, h2⟩ := guarded_next h
  exact ⟨(admitDecs_none_iff s b e).1 h1, (Host.Outcome.next.inj h2).symm⟩

/-- Every way `DECS` can end (42_decoder_safe.md R161). -/
theorem decsBody_cases (s : State) (b avail : Nat) :
    (decsBody s b avail = failDecs s .eTruncated) ∨
    (9 ≤ avail ∧ s.mem.readByte b = 0x00 ∧ (s.mem.memRead (b + 1) 8).toNat < Config.longMin ∧
      decsBody s b avail = failDecs s .eNoncanonical) ∨
    (9 ≤ avail ∧ s.mem.readByte b = 0x00 ∧ Config.longMin ≤ (s.mem.memRead (b + 1) 8).toNat ∧
      decsBody s b avail = succeedDecs s (s.mem.memRead (b + 1) 8) (b + 9)) ∨
    (lsb8 (s.mem.readByte b) + 1 ≤ avail ∧ s.mem.readByte b ≠ 0x00 ∧
      decsBody s b avail = decsShort s b avail (lsb8 (s.mem.readByte b) + 1)) := by
  unfold decsBody
  split_ifs with h0 hz
  · exact .inl rfl
  · unfold decsLong
    split_ifs with h9 hm
    · exact .inl rfl
    · exact .inr (.inl ⟨by omega, hz, hm, rfl⟩)
    · exact .inr (.inr (.inl ⟨by omega, hz, by omega, rfl⟩))
  · by_cases hL : avail < lsb8 (s.mem.readByte b) + 1
    · exact .inl (by rw [decsShort, if_pos hL])
    · exact .inr (.inr (.inr ⟨by omega, hz, rfl⟩))

/-! ## The chunk forms -/

theorem exec_chunk (i : Instr) (h : isChunk i = true) (s : State) :
    exec i s = readChunk (chunkLength i) (chunkValue i) s := by
  cases i <;> first | rfl | simp [isChunk] at h

theorem readChunk_safe {s : State} (L : Nat) (V : U64) (hd : s.reader.decoder = .safe)
    (h : s.DecsAdmitted s.reader.begin_ s.reader.end_) : readChunk L V s = .next (safeRead L V s) := by
  simp only [readChunk, hd]
  rw [(admitDecs_none_iff s _ _).2 h, guarded_none]

theorem readChunk_fast {s : State} (L : Nat) (V : U64) (hd : s.reader.decoder = .fast)
    (h : s.DecfAdmitted s.reader.begin_) :
    readChunk L V s = guarded (decfContract s (canonical L V)) (.next (fastRead L V s)) := by
  simp only [readChunk, hd]
  rw [(admitDecf_none_iff s _).2 h, guarded_none]

/-- A next state of a chunk form is the read of one of the two decoders. -/
theorem readChunk_next {s t : State} {L : Nat} {V : U64} (h : readChunk L V s = .next t) :
    (s.reader.decoder = .safe ∧ s.DecsAdmitted s.reader.begin_ s.reader.end_ ∧ t = safeRead L V s) ∨
      (s.reader.decoder = .fast ∧ s.DecfAdmitted s.reader.begin_ ∧
        decfContract s (canonical L V) = none ∧ t = fastRead L V s) := by
  unfold readChunk at h
  cases hd : s.reader.decoder with
  | safe =>
    simp only [hd] at h
    obtain ⟨h1, h2⟩ := guarded_next h
    exact .inl ⟨rfl, (admitDecs_none_iff s _ _).1 h1, (Host.Outcome.next.inj h2).symm⟩
  | fast =>
    simp only [hd] at h
    obtain ⟨h1, h2⟩ := guarded_next h
    obtain ⟨h3, h4⟩ := guarded_next h2
    exact .inr ⟨rfl, (admitDecf_none_iff s _).1 h1, h3, (Host.Outcome.next.inj h4).symm⟩

/-! ## All instructions -/

/-- Where a next state of any instruction comes from. -/
theorem exec_next {i : Instr} {s t : State} (h : exec i s = .next t) :
    (∃ v d, i = .enc v d ∧ s.EncAdmitted d ∧ t = encAfter s v d) ∨
    (∃ a, i = .decf a ∧ s.DecfAdmitted a ∧ decfContract s (validChunkAt s.mem a) = none ∧
      t = s.withResult (some (.decf (decfValue s.mem a) (decfLen s.mem a)))) ∨
    (∃ b e, i = .decs b e ∧ s.DecsAdmitted b e ∧ t = decsBody s b (e - b)) ∨
    (isChunk i = true ∧ readChunk (chunkLength i) (chunkValue i) s = .next t) := by
  by_cases hc : isChunk i = true
  · exact .inr (.inr (.inr ⟨hc, exec_chunk i hc s ▸ h⟩))
  · cases i with
    | enc v d => exact .inl ⟨v, d, rfl, execEnc_next h⟩
    | decf a => exact .inr (.inl ⟨a, rfl, execDecf_next h⟩)
    | decs b e => exact .inr (.inr (.inl ⟨b, e, rfl, execDecs_next h⟩))
    | _ => exact absurd rfl hc

end Sys2Proof.Machine
end

