-- ==== Sys2Proof/Laws/PerInstr.lean ====
section
/-! SUPPORT. What holds of every instruction as syntax, one lemma per constructor. -/

namespace Sys2Proof.Laws.EncodedLength

/-- The bytes an instruction is written in are as many as its form says (30_encoding.md R70, R72), none for an operation. -/
def Statement (i : Instr) : Prop := (encodeChunk i).length = chunkLength i ∧ chunkLength i ≤ 9

theorem enc (value : U64) (dest : Nat) : Statement (.enc value dest) := ⟨rfl, Nat.le_of_ble_eq_true rfl⟩

theorem decf (src : Nat) : Statement (.decf src) := ⟨rfl, Nat.le_of_ble_eq_true rfl⟩

theorem decs (begin_ end_ : Nat) : Statement (.decs begin_ end_) := ⟨rfl, Nat.le_of_ble_eq_true rfl⟩

theorem s1 (v : BitVec 7) : Statement (.s1 v) := ⟨Machine.length_leBytes _ _, Nat.le_of_ble_eq_true rfl⟩

theorem s2 (v : BitVec 14) : Statement (.s2 v) := ⟨Machine.length_leBytes _ _, Nat.le_of_ble_eq_true rfl⟩

theorem s3 (v : BitVec 21) : Statement (.s3 v) := ⟨Machine.length_leBytes _ _, Nat.le_of_ble_eq_true rfl⟩

theorem s4 (v : BitVec 28) : Statement (.s4 v) := ⟨Machine.length_leBytes _ _, Nat.le_of_ble_eq_true rfl⟩

theorem s5 (v : BitVec 35) : Statement (.s5 v) := ⟨Machine.length_leBytes _ _, Nat.le_of_ble_eq_true rfl⟩

theorem s6 (v : BitVec 42) : Statement (.s6 v) := ⟨Machine.length_leBytes _ _, Nat.le_of_ble_eq_true rfl⟩

theorem s7 (v : BitVec 49) : Statement (.s7 v) := ⟨Machine.length_leBytes _ _, Nat.le_of_ble_eq_true rfl⟩

theorem s8 (v : BitVec 56) : Statement (.s8 v) := ⟨Machine.length_leBytes _ _, Nat.le_of_ble_eq_true rfl⟩

theorem l9 (v : BitVec 64) : Statement (.l9 v) :=
  ⟨congrArg (· + 1) (Machine.length_leBytes 8 v.toNat), Nat.le_of_ble_eq_true rfl⟩

end Sys2Proof.Laws.EncodedLength
end

