-- ==== Sys2Proof/Laws/Chunk.lean ====
section
/-! SUPPORT. Chunks as integers, and what the two datapaths read of bytes that memory holds. -/

namespace Sys2Proof.Machine

/-! ## The first byte -/

/-- The marker bit is the lowest set bit (30_encoding.md R72, R73). -/
theorem lsb8_of_marker (b : Byte) (k : Nat) (hk : k ≤ 7) (h : b.toNat % 2 ^ (k + 1) = 2 ^ k) :
    lsb8 b = k ∧ b ≠ 0 := by
  have key : ∀ b : Byte, ∀ k : Fin 8, b.toNat % 2 ^ (k.val + 1) = 2 ^ k.val → lsb8 b = k.val ∧ b ≠ 0 := by decide
  exact key b ⟨k, by omega⟩ h

theorem pow256_eq (n : Nat) : 256 ^ n = 2 ^ (8 * n) := by
  rw [pow_mul]
  norm_num

/-! ## Chunks as integers -/

/-- The integer of a short form (30_encoding.md R73). -/
theorem leInt_shortChunk {k v : Nat} (h : v < 2 ^ (7 * (k + 1))) :
    leInt (shortChunk k v) = (2 * v + 1) * 2 ^ k := by
  rw [shortChunk, leInt_leBytes_of_lt]
  rw [pow256_eq]
  have h1 : 2 * v + 1 < 2 ^ (7 * (k + 1) + 1) := by
    rw [pow_succ]
    omega
  calc (2 * v + 1) * 2 ^ k < 2 ^ (7 * (k + 1) + 1) * 2 ^ k :=
        Nat.mul_lt_mul_of_pos_right h1 (Nat.two_pow_pos k)
    _ = 2 ^ (8 * (k + 1)) := by
        rw [← pow_add]
        congr 1
        omega

/-- A short form is the short chunk of its value. -/
theorem encodeChunk_short {i : Instr} {k : Nat} (hc : isChunk i = true) (hk : k ≤ 7) (hL : chunkLength i = k + 1) :
    encodeChunk i = shortChunk k (chunkValue i).toNat ∧ (chunkValue i).toNat < 2 ^ (7 * (k + 1)) := by
  obtain rfl : k = chunkLength i - 1 := by omega
  cases i with
  | enc _ _ => simp [isChunk] at hc
  | decf _ => simp [isChunk] at hc
  | decs _ _ => simp [isChunk] at hc
  | l9 v =>
    simp only [chunkLength] at hk
    omega
  | s1 v | s2 v | s3 v | s4 v | s5 v | s6 v | s7 v | s8 v =>
    have hv := v.isLt
    have e : (v.setWidth 64).toNat = v.toNat := by
      rw [BitVec.toNat_setWidth]
      exact Nat.mod_eq_of_lt (hv.trans_le (Nat.pow_le_pow_right (by omega) (by omega)))
    constructor
    · simp only [encodeChunk, chunkValue, e, chunkLength, Nat.add_one_sub_one]
    · simpa only [chunkValue, e, chunkLength] using hv

theorem leInt_short {i : Instr} {k : Nat} (hc : isChunk i = true) (hk : k ≤ 7) (hL : chunkLength i = k + 1) :
    leInt (encodeChunk i) = (2 * (chunkValue i).toNat + 1) * 2 ^ k := by
  obtain ⟨h1, h2⟩ := encodeChunk_short hc hk hL
  rw [h1, leInt_shortChunk h2]

/-- A chunk of nine bytes is the long form. -/
theorem eq_l9 {i : Instr} (hL : chunkLength i = 9) : ∃ v, i = .l9 v := by
  cases i <;> first | exact ⟨_, rfl⟩ | simp [chunkLength] at hL

theorem length_encodeChunk (i : Instr) : (encodeChunk i).length = chunkLength i := by
  cases i with
  | enc v d => exact (Laws.EncodedLength.enc v d).1
  | decf a => exact (Laws.EncodedLength.decf a).1
  | decs b e => exact (Laws.EncodedLength.decs b e).1
  | s1 v => exact (Laws.EncodedLength.s1 v).1
  | s2 v => exact (Laws.EncodedLength.s2 v).1
  | s3 v => exact (Laws.EncodedLength.s3 v).1
  | s4 v => exact (Laws.EncodedLength.s4 v).1
  | s5 v => exact (Laws.EncodedLength.s5 v).1
  | s6 v => exact (Laws.EncodedLength.s6 v).1
  | s7 v => exact (Laws.EncodedLength.s7 v).1
  | s8 v => exact (Laws.EncodedLength.s8 v).1
  | l9 v => exact (Laws.EncodedLength.l9 v).1

/-- The length of a chunk form is in `1 .. 9` (30_encoding.md R70). -/
theorem chunkLength_bounds {i : Instr} (hc : isChunk i = true) : 1 ≤ chunkLength i ∧ chunkLength i ≤ 9 := by
  cases i <;> first | exact Bool.noConfusion hc | simp [chunkLength]

/-- The low bits of an integer with the marker at bit `k`. -/
theorem marker_mod (v k : Nat) : (2 * v + 1) * 2 ^ k % 2 ^ (k + 1) = 2 ^ k := by
  rw [pow_succ, Nat.mul_comm (2 ^ k) 2, Nat.mul_mod_mul_right, Nat.add_mod]
  simp

theorem marker_div (v k : Nat) : (2 * v + 1) * 2 ^ k / 2 ^ (k + 1) = v := by
  rw [pow_succ, Nat.mul_comm (2 ^ k) 2, Nat.mul_div_mul_right _ _ (Nat.two_pow_pos k)]
  omega

/-! ## The class table (30_encoding.md R76) -/

theorem isChunk_formFor (v : U64) : isChunk (formFor v) = true := by
  unfold formFor
  split_ifs <;> rfl

theorem setWidth_roundTrip {w : Nat} (v : U64) (h : v.toNat < 2 ^ w) :
    (v.setWidth w).setWidth 64 = v := by
  apply BitVec.eq_of_toNat_eq
  rw [BitVec.toNat_setWidth, BitVec.toNat_setWidth, Nat.mod_eq_of_lt h, Nat.mod_eq_of_lt v.isLt]

theorem chunkValue_formFor (v : U64) : chunkValue (formFor v) = v := by
  unfold formFor
  split_ifs <;> first | rfl | exact setWidth_roundTrip v (by assumption)

/-- The form of a value is the one whose class the value lies in. -/
theorem formFor_class (v : U64) : classMin (chunkLength (formFor v)) ≤ v.toNat ∧
    (chunkLength (formFor v) ≤ 8 → v.toNat < 2 ^ (7 * chunkLength (formFor v))) := by
  unfold formFor
  split_ifs <;> simp only [chunkLength, classMin] <;> norm_num <;> omega

/-- The classes do not overlap, so a canonical chunk is the form of its value (30_encoding.md R77). -/
theorem chunkLength_eq_of_class {v : U64} {L : Nat} (h1 : 1 ≤ L) (h9 : L ≤ 9) (hmin : classMin L ≤ v.toNat)
    (hmax : L ≤ 8 → v.toNat < 2 ^ (7 * L)) : chunkLength (formFor v) = L := by
  obtain ⟨hf1, hf2⟩ := formFor_class v
  have hb := chunkLength_bounds (isChunk_formFor v)
  have step : ∀ {a b : Nat}, 1 ≤ a → a < b → classMin b ≤ v.toNat → v.toNat < 2 ^ (7 * a) → False := by
    intro a b ha hab hb hlt
    have : 2 ^ (7 * a) ≤ 2 ^ (7 * (b - 1)) := Nat.pow_le_pow_right (by omega) (by omega)
    rw [classMin, if_neg (by omega)] at hb
    omega
  rcases Nat.lt_trichotomy (chunkLength (formFor v)) L with h | h | h
  · exact (step hb.1 h hmin (hf2 (by omega))).elim
  · exact h
  · exact (step h1 h hf1 (hmax (by omega))).elim

/-! ## Bytes that memory holds -/

theorem readBytes_of_holds {m : Memory} {a : Nat} {bs : List Byte} (h : m.Holds a bs) :
    m.readBytes a bs.length = bs := by
  apply List.ext_getElem (by simp)
  intro n h1 h2
  rw [getElem_readBytes]
  exact h n h2

theorem holds_readBytes (m : Memory) (a n : Nat) : m.Holds a (m.readBytes a n) := by
  intro i h
  rw [getElem_readBytes]

theorem holds_iff (m : Memory) (a : Nat) (bs : List Byte) : m.Holds a bs ↔ m.readBytes a bs.length = bs :=
  ⟨readBytes_of_holds, fun h => h ▸ holds_readBytes m a bs.length⟩

theorem holds_append {m : Memory} {a : Nat} {as bs : List Byte} :
    m.Holds a (as ++ bs) ↔ m.Holds a as ∧ m.Holds (a + as.length) bs := by
  constructor
  · intro h
    refine ⟨fun n hn => ?_, fun n hn => ?_⟩
    · have := h n (by simp; omega)
      rwa [List.getElem_append_left hn] at this
    · have := h (as.length + n) (by simp; omega)
      rw [List.getElem_append_right (by omega)] at this
      rw [Nat.add_assoc, this]
      congr 1
      omega
  · rintro ⟨h1, h2⟩ n hn
    by_cases hl : n < as.length
    · rw [List.getElem_append_left hl]
      exact h1 n hl
    · rw [List.getElem_append_right (by omega)]
      have := h2 (n - as.length) (by simp at hn; omega)
      rw [← this]
      congr 1
      omega

theorem holds_congr {m m' : Memory} {a : Nat} {bs : List Byte} (h : m.AgreeOn m' a (a + bs.length))
    (hm : m.Holds a bs) : m'.Holds a bs := fun n hn => by
  rw [← h (a + n) (by omega) (by omega)]
  exact hm n hn

theorem readBytes_take (m : Memory) (a : Nat) {n k : Nat} (h : k ≤ n) :
    (m.readBytes a n).take k = m.readBytes a k := by
  apply List.ext_getElem (by simp; omega)
  intro i h1 h2
  rw [List.getElem_take, getElem_readBytes, getElem_readBytes]

theorem leInt_readBytes_lt (m : Memory) (a n : Nat) : leInt (m.readBytes a n) < 2 ^ (8 * n) := by
  have := leInt_lt (m.readBytes a n)
  rwa [length_readBytes, pow256_eq] at this

/-- `MemRead` is the little-endian integer of its bytes (20_memory.md R42). -/
theorem memRead_toNat (m : Memory) (a : Nat) {n : Nat} (h : n ≤ 8) :
    (m.memRead a n).toNat = leInt (m.readBytes a n) := by
  rw [Memory.memRead, BitVec.toNat_ofNat]
  exact Nat.mod_eq_of_lt ((leInt_readBytes_lt m a n).trans_le (Nat.pow_le_pow_right (by omega) (by omega)))

/-- The first byte is the low byte (20_memory.md R44). -/
theorem readByte_toNat (m : Memory) (a n : Nat) (h : 0 < n) :
    (m.readByte a).toNat = leInt (m.readBytes a n) % 256 := by
  obtain ⟨n, rfl⟩ : ∃ n', n = n' + 1 := ⟨n - 1, by omega⟩
  have := (m.readByte a).isLt
  simp only [Memory.readBytes, leInt]
  omega

/-- The short path of the decoders as integers: the chunk's bytes alone matter (41_decoder_fast.md R136, R137, R139). -/
theorem shortValue_toNat (m : Memory) (a : Nat) {k : Nat} (h : k ≤ 7) :
    (shortValue m a k).toNat = leInt (m.readBytes a (k + 1)) / 2 ^ (k + 1) := by
  rw [shortValue, shr64_toNat, and_maskLow_toNat _ (by omega), memRead_toNat _ _ (by omega), ← pow256_eq,
    ← leInt_take, readBytes_take _ _ (by omega)]

/-- The exact copy of `DECS` and the masked load of `DECF` give one value (42_decoder_safe.md R155). -/
theorem exactCopy_eq_shortValue (m : Memory) (a : Nat) {k : Nat} (h : k ≤ 7) :
    shr64 (m.memRead a (k + 1) &&& maskLow (8 * (k + 1))) (k + 1) = shortValue m a k := by
  apply BitVec.eq_of_toNat_eq
  rw [shortValue_toNat m a h, shr64_toNat, and_maskLow_toNat _ (by omega), memRead_toNat _ _ (by omega),
    Nat.mod_eq_of_lt (leInt_readBytes_lt m a (k + 1))]

/-! ## Reading a chunk that memory holds -/

theorem readBytes_of_holdsChunk {m : Memory} {a : Nat} {i : Instr} (h : m.HoldsChunk a i) :
    m.readBytes a (chunkLength i) = encodeChunk i := by
  rw [← length_encodeChunk]
  exact readBytes_of_holds h.2

/-- The first byte of a short form in memory. -/
theorem firstByte_short {m : Memory} {a k : Nat} {i : Instr} (h : m.HoldsChunk a i) (hk : k ≤ 7)
    (hL : chunkLength i = k + 1) : lsb8 (m.readByte a) = k ∧ m.readByte a ≠ 0x00 := by
  apply lsb8_of_marker _ _ hk
  rw [readByte_toNat m a (chunkLength i) (by omega), readBytes_of_holdsChunk h, leInt_short h.1 hk hL]
  rw [Nat.mod_mod_of_dvd _ (by rw [show (256 : Nat) = 2 ^ 8 by rfl]; exact Nat.pow_dvd_pow 2 (by omega))]
  exact marker_mod _ _

theorem shortValue_of_holdsChunk {m : Memory} {a k : Nat} {i : Instr} (h : m.HoldsChunk a i) (hk : k ≤ 7)
    (hL : chunkLength i = k + 1) : shortValue m a k = chunkValue i := by
  apply BitVec.eq_of_toNat_eq
  rw [shortValue_toNat m a hk, ← hL, readBytes_of_holdsChunk h, leInt_short h.1 hk hL, hL, marker_div]

theorem firstByte_long {m : Memory} {a : Nat} {v : BitVec 64} (h : m.HoldsChunk a (.l9 v)) :
    m.readByte a = 0x00 := by
  have := h.2 0 (by simp [encodeChunk])
  simpa [encodeChunk] using this

theorem longValue_of_holdsChunk {m : Memory} {a : Nat} {v : BitVec 64} (h : m.HoldsChunk a (.l9 v)) :
    m.memRead (a + 1) 8 = v := by
  have hb : m.Holds a ([0x00] ++ leBytes 8 v.toNat) := h.2
  have h2 := readBytes_of_holds (holds_append.1 hb).2
  rw [length_leBytes] at h2
  apply BitVec.eq_of_toNat_eq
  rw [memRead_toNat _ _ (by omega)]
  simp only [List.length_singleton] at h2
  rw [h2, leInt_leBytes_of_lt]
  exact v.isLt

end Sys2Proof.Machine
end

