-- ==== Sys2Proof/Laws/Stream.lean ====
section
/-! SUPPORT. Where the windows of an append end, and the split of a stream one chunk at a time. -/

namespace Sys2Proof.Machine

@[simp] theorem streamBytes_nil : streamBytes [] = [] := rfl

@[simp] theorem streamBytes_cons (v : U64) (vs : List U64) : streamBytes (v :: vs) = encBytes v ++ streamBytes vs := rfl

@[simp] theorem appendPast_nil (p : Nat) : appendPast [] p = p := rfl

@[simp] theorem appendPast_one (v : U64) (p : Nat) : appendPast [v] p = p + 9 := rfl

/-- The last window of a longer stream is that of its rest. -/
theorem appendPast_cons_cons (v w : U64) (vs : List U64) (p : Nat) :
    appendPast (v :: w :: vs) p = appendPast (w :: vs) (p + (encBytes v).length) := by
  simp [appendPast, Nat.add_assoc]

/-- The first window lies inside. -/
theorem appendPast_first (v : U64) (vs : List U64) (p : Nat) : p + 9 ≤ appendPast (v :: vs) p := by
  simp only [appendPast, reduceCtorEq, if_false, Config.window]
  omega

@[simp] theorem splitChunks_nil (n : Nat) : splitChunks n [] = .ok [] := by cases n <;> rfl

/-- A stream that begins with a chunk splits into that chunk and what the rest splits into. -/
theorem splitChunks_ok {n : Nat} {bs rest : List Byte} {i : Instr} (h : decodeChunk bs = .ok (i, rest)) :
    splitChunks (n + 1) bs = (splitChunks n rest).map (fun cs => i :: cs) := by
  cases bs with
  | nil => simp [decodeChunk] at h
  | cons b bs => simp only [splitChunks, h]

end Sys2Proof.Machine
end

