-- ==== Sys2Proof/Tests/Slice0.lean ====
section
/-! SUPPORT. The model's own tests, with expected results from spec/95_test_vectors.md, and for every statement of
Certificates/Slice0/Obligations.lean that has hypotheses a concrete state and operands that meet them. -/

namespace Sys2Proof.Tests

open Sys2Proof Sys2Proof.Machine

/-! ## Small states -/

/-- The state after reset with these bytes from an address upward. -/
def holding (a : Nat) (bs : List Byte) : State := { State.reset with mem := Memory.empty.writeBytes a bs }

/-- The parameters with the tail of the reference datapath. -/
def refTail : Config.Params := { Config.defaults with tail := .reference }

/-- The parameters with `DECF_OUTSIDE_CONTRACT = datapath`. -/
def openDecf : Config.Params := { Config.defaults with decfOutside := .datapath }

/-- A walk about to read these bytes, which stand in the whole window. -/
def walkOver (d : DecoderKind) (bs : List Byte) : State :=
  { holding 0x3000 bs with reader := ⟨d, 0x3000, 0x3000 + bs.length, true⟩ }

/-- The result fields after an outcome. -/
def resultOf : Host.Outcome State Fault Refusal → Option Result
  | .next t => t.result
  | .fault _ => none
  | .refused _ => none

/-- The bytes at an address after an outcome. -/
def bytesOf (o : Host.Outcome State Fault Refusal) (a n : Nat) : List Byte :=
  match o with
  | .next t => t.mem.readBytes a n
  | .fault _ => []
  | .refused _ => []

/-- The cursor and whether the walk goes on after an outcome. -/
def walkOf : Host.Outcome State Fault Refusal → Nat × Bool
  | .next t => (t.reader.begin_, t.reader.walking)
  | .fault _ => (0, false)
  | .refused _ => (0, false)

/-- The status of a `DECS` result. -/
def statusOf (o : Host.Outcome State Fault Refusal) : Option Status :=
  match resultOf o with
  | some (.decs c _ _) => some c
  | _ => none

/-- Why an outcome was refused. -/
def whyOf : Host.Outcome State Fault Refusal → Option Refusal
  | .next _ => none
  | .fault _ => none
  | .refused why => some why

/-! ## WellFormed: an ill-formed term for each check -/

theorem test_wellFormed_enc_dest : wellFormed 64 (.enc 0 (2 ^ 64)) = false := by decide
theorem test_wellFormed_decf_src : wellFormed 64 (.decf (2 ^ 64)) = false := by decide
theorem test_wellFormed_decs_begin : wellFormed 64 (.decs (2 ^ 64) 0) = false := by decide
theorem test_wellFormed_decs_end : wellFormed 64 (.decs 0 (2 ^ 64)) = false := by decide
theorem test_wellFormed_accepts : wellFormed 64 (.decs (2 ^ 64 - 1) (2 ^ 64 - 1)) = true := by decide

/-! ## Decoding: a word of every constructor, written out from 30_encoding.md R72 to R75, R82, R83 -/

/-- `{op=00, value=300, dest=0x1000}`, `{op=01, src=0x1000}`, `{op=10, begin=0x1000, end=0x1002}`
(95_test_vectors.md P1), fields upward from bit 2 (log 2). -/
theorem test_decode_operations :
    decodeCommand 64 (0x1000 <<< 66 ||| 300 <<< 2 ||| 0b00) = .ok (.enc 300 0x1000) ∧
    decodeCommand 64 (0x1000 <<< 2 ||| 0b01) = .ok (.decf 0x1000) ∧
    decodeCommand 64 (0x1002 <<< 66 ||| 0x1000 <<< 2 ||| 0b10) = .ok (.decs 0x1000 0x1002) := by decide

/-- The reserved select code (30_encoding.md R82). -/
theorem test_decode_reserved : decodeCommand 64 0b0111 = .error .opReserved := by decide

/-- 95_test_vectors.md section 3.1. -/
theorem test_decode_short_chunks :
    decodeChunk [0b11001001] = .ok (.s1 100, []) ∧
    decodeChunk [0b10110010, 0b00000100] = .ok (.s2 300, []) ∧
    decodeChunk [0b00000100, 0b00000000, 0b00000010] = .ok (.s3 16384, []) ∧
    decodeChunk [0b11111000, 0xFF, 0xFF, 0x0F] = .ok (.s4 0xFFFFFF, []) ∧
    decodeChunk [0b11110000, 0xDD, 0xB7, 0xD5, 0x1B] = .ok (.s5 0xDEADBEEF, []) := by decide

theorem test_decode_long_chunks :
    decodeChunk [0b00100000, 0, 0, 0, 0, 0x02] = .ok (.s6 0x800000000, []) ∧
    decodeChunk [0b01000000, 0, 0, 0, 0, 0, 0x80] = .ok (.s7 0x1000000000000, []) ∧
    decodeChunk [0b10000000, 0x67, 0x45, 0x23, 0x01, 0xEF, 0xCD, 0xAB] = .ok (.s8 0xABCDEF01234567, []) ∧
    decodeChunk [0b00000000, 0xEF, 0xCD, 0xAB, 0x89, 0x67, 0x45, 0x23, 0x01] = .ok (.l9 0x0123456789ABCDEF, []) := by
  decide

/-- A stream cut inside a chunk, and an empty one, give no chunk. -/
theorem test_decode_cut : decodeChunk [0xB2] = .error .cutShort ∧ decodeChunk [] = .error .noByte := by decide

/-- The class table sends a value to the form 95_test_vectors.md section 3.1 names, with its bytes. -/
theorem test_encBytes_class_boundaries :
    encBytes 127 = [0xFF] ∧ encBytes 128 = [0x02, 0x02] ∧ encBytes 16383 = [0xFE, 0xFF] ∧
    encBytes 0x200000 = [0x08, 0x00, 0x00, 0x02] ∧
    encBytes 0xFFFFFFFFFFFFFF = [0x80, 0xFF, 0xFF, 0xFF, 0xFF, 0xFF, 0xFF, 0xFF] ∧
    encBytes 0x100000000000000 = [0x00, 0x00, 0x00, 0x00, 0x00, 0x00, 0x00, 0x00, 0x01] := by decide

/-- The host's numbering: an operation of the table, and chunks in it. -/
theorem test_decodeTableWord :
    decodeTableWord 8 0x01 = some (.decf 0) ∧ decodeTableWord 8 0xC9 = some (.s1 100) ∧
    decodeTableWord 16 0x04B2 = some (.s2 300) ∧ decodeTableWord 72 0x0123456789ABCDEF00 = some (.l9 0x0123456789ABCDEF) := by
  decide

/-! ## Primitives (95_test_vectors.md section 2) -/

theorem test_primitives :
    msb64 0x7F = 6 ∧ msb64 0x80 = 7 ∧ clz64 0xFFFFFFFFFFFFFF = 8 ∧ lsb8 0xB2 = 1 ∧ lsb8 0x80 = 7 ∧
    div7 55 = 7 ∧ maskLow 64 = 0xFFFFFFFFFFFFFFFF ∧ shl64 0x01FFFFFFFFFFFFFF 7 = 0xFFFFFFFFFFFFFF80 ∧
    shr64 0xFFFFFFFFFFFFFF80 8 = 0x00FFFFFFFFFFFFFF := by decide

/-! ## One step, at most two tests per instruction -/

/-- 95_test_vectors.md section 3.2: the reference tail, and the bytes past the window. -/
theorem test_enc_short_reference :
    bytesOf (exec (.enc 300 0x1000)
      { holding 0x1000 [0xE0, 0xE1, 0xE2, 0xE3, 0xE4, 0xE5, 0xE6, 0xE7, 0xE8, 0xE9] with cfg := refTail }) 0x1000 10 =
      [0xB2, 0x04, 0x00, 0x00, 0x00, 0x00, 0x00, 0x00, 0xE8, 0xE9] := by decide

/-- 95_test_vectors.md section 3.2: the long path has no tail. -/
theorem test_enc_long :
    resultOf (exec (.enc 0x0123456789ABCDEF 0x1000) (holding 0x1009 [0xE9])) = some (.enc 9) ∧
    bytesOf (exec (.enc 0x0123456789ABCDEF 0x1000) (holding 0x1009 [0xE9])) 0x1000 10 =
      [0x00, 0xEF, 0xCD, 0xAB, 0x89, 0x67, 0x45, 0x23, 0x01, 0xE9] := by decide

/-- 95_test_vectors.md P6: all 64 bits of the working word; a mask of 0 or an arithmetic shift fails here. -/
theorem test_decf_s8 :
    resultOf (exec (.decf 0x2000) (holding 0x2000 [0x80, 0x67, 0x45, 0x23, 0x01, 0xEF, 0xCD, 0xAB, 0x99])) =
      some (.decf 0x00ABCDEF01234567 8) := by decide

/-- 95_test_vectors.md section 4.2. -/
theorem test_decf_overlong :
    whyOf (exec (.decf 0x2000) (holding 0x2000 [0xFE, 0x01])) = some .decfChunk ∧
    resultOf (exec (.decf 0x2000) { holding 0x2000 [0xFE, 0x01] with cfg := openDecf }) = some (.decf 127 2) := by
  decide

/-- 95_test_vectors.md section 5.1. -/
theorem test_decs_success :
    resultOf (exec (.decs 0x3000 0x3004) (holding 0x3000 [0xB2, 0x04, 0xAA, 0xBB])) = some (.decs .ok 300 0x3002) ∧
    resultOf (exec (.decs 0x3000 0x3002) (holding 0x3000 [0x02, 0x00])) = some (.decs .ok 0 0x3002) := by decide

/-- 95_test_vectors.md section 5.2: the truncation is reported before the canonical check.
An operand of more than `AW` bits is refused, even with an empty window (00_scope.md R7; log 1). -/
theorem test_decs_failure :
    whyOf (exec (.decs (2 ^ 64) (2 ^ 64)) State.reset) = some .decsWindow ∧
    whyOf (exec (.decs 0 (2 ^ 64)) State.reset) = some .decsWindow ∧
    statusOf (exec (.decs 0x3000 0x3008) (holding 0x3000 [0x00])) = some .eTruncated ∧
    statusOf (exec (.decs 0x3000 0x3009) (holding 0x3000 [0, 0xFF, 0xFF, 0xFF, 0xFF, 0xFF, 0xFF, 0xFF, 0])) =
      some .eNoncanonical := by decide

/-- Each short form read by a step of a `DECS` walk (95_test_vectors.md section 5.1 and 3.1). -/
theorem test_walk_s1 : resultOf (step (walkOver .safe [0xFF])) = some (.decs .ok 127 0x3001) := by decide
theorem test_walk_s2 : resultOf (step (walkOver .safe [0xB2, 0x04])) = some (.decs .ok 300 0x3002) := by decide
theorem test_walk_s3 : resultOf (step (walkOver .safe [0x04, 0x00, 0x02])) = some (.decs .ok 16384 0x3003) := by decide
theorem test_walk_s4 :
    resultOf (step (walkOver .safe [0xF8, 0xFF, 0xFF, 0x0F])) = some (.decs .ok 0xFFFFFF 0x3004) := by decide
theorem test_walk_s5 :
    resultOf (step (walkOver .safe [0xF0, 0xDD, 0xB7, 0xD5, 0x1B])) = some (.decs .ok 0xDEADBEEF 0x3005) := by decide
theorem test_walk_s6 :
    resultOf (step (walkOver .safe [0x20, 0, 0, 0, 0, 0x02])) = some (.decs .ok 0x800000000 0x3006) := by decide
theorem test_walk_s7 :
    walkOf (step (walkOver .safe [0x40, 0, 0, 0, 0, 0, 0x80])) = (0x3007, true) := by decide
theorem test_walk_s8 :
    resultOf (step (walkOver .fast [0x80, 0xFF, 0xFF, 0xFF, 0xFF, 0xFF, 0xFF, 0xFF])) =
      some (.decf 0xFFFFFFFFFFFFFF 8) := by decide
theorem test_walk_l9 :
    resultOf (step (walkOver .safe [0, 0, 0, 0, 0, 0, 0, 0, 1])) = some (.decs .ok 0x100000000000000 0x3009) := by
  decide
theorem test_walk_l9_noncanonical :
    statusOf (step (walkOver .safe [0, 5, 0, 0, 0, 0, 0, 0, 0])) = some .eNoncanonical ∧
    walkOf (step (walkOver .safe [0, 5, 0, 0, 0, 0, 0, 0, 0])) = (0x3000, false) := by decide

/-- A walk whose window cuts a chunk (45_stream.md R177): the cursor stays, the walk stops. -/
theorem test_walk_truncated :
    statusOf (step (walkOver .safe [0x04, 0x00])) = some .eTruncated ∧
    walkOf (step (walkOver .safe [0x04, 0x00])) = (0x3000, false) := by decide

/-- A word placed for the host runs as the next step, in both places an instruction can stand. -/
theorem test_withFetchWord :
    resultOf (step (State.reset.withFetchWord 8 0x00)) = some (.enc 1) ∧
    resultOf (step (State.reset.withFetchWord 16 0x04B2)) = some (.decs .ok 300 2) ∧
    whyOf (step { State.reset with port := [3] }) = some .opReserved := by decide

theorem test_core : core.reset = State.reset ∧ resultOf (step State.reset) = none := ⟨rfl, rfl⟩

/-! ## Witnesses: a concrete state and operands for the hypotheses of each statement -/

/-- A stream of 300, then 2^56, then an overlong `S2` and an overlong `L9` (95_test_vectors.md sections 6 and 4.2). -/
def room : State := holding 0x1000
  [0xB2, 0x04, 0x00, 0x00, 0x00, 0x00, 0x00, 0x00, 0x00, 0x00, 0x01, 0x02, 0x00, 0x00, 0x05]

theorem witness_ChunkReadsBackFromStream : isChunk (.s1 0) = true ∧ isChunk (.l9 0) = true := by decide

theorem witness_DecodeInvertsEncode :
    wellFormed 64 (.enc 300 (2 ^ 64 - 1)) = true ∧ wellFormed 16 (.decs 0 0xFFFF) = true ∧
    wellFormed 0 (.decf 0) = true ∧ wellFormed 64 (.l9 0) = true := by decide

/-- The window ends exactly with the chunk. -/
theorem witness_EveryByteSequenceIsOneChunk :
    declaredLength 0xB2 ≤ [(0x04 : Byte)].length + 1 ∧ declaredLength 0x00 ≤ (List.replicate 8 (0x00 : Byte)).length + 1 := by
  decide

theorem witness_ShortFormLayout :
    (isChunk (.s1 127) = true ∧ 0 ≤ 7 ∧ chunkLength (.s1 127) = 0 + 1) ∧
    (isChunk (.s8 0xFFFFFFFFFFFFFF) = true ∧ 7 ≤ 7 ∧ chunkLength (.s8 0xFFFFFFFFFFFFFF) = 7 + 1) := by decide

theorem witness_NoChunkBeginsAnother : encBytes 300 <+: encBytes 300 := List.prefix_rfl

theorem witness_StepRunsThePortCommand :
    ({ room with port := [0x1000 * 4 + 1] } : State).resetPending = false ∧
    decodeCommand room.cfg.aw (0x1000 * 4 + 1) = .ok (.decf 0x1000) := by decide

/-- Both clauses, each with a window that ends exactly with the chunk or the nine bytes. -/
theorem witness_StepRunsTheChunkAtTheCursor :
    (let s := walkOver .safe [0xB2, 0x04]
     s.resetPending = false ∧ s.port = [] ∧ s.reader.walking = true ∧ s.reader.begin_ < s.reader.end_ ∧
      s.mem.HoldsChunk s.reader.begin_ (.s2 300) ∧ s.reader.decoder = .safe ∧
      s.DecsAdmitted s.reader.begin_ s.reader.end_ ∧ chunkLength (.s2 300) ≤ s.reader.end_ - s.reader.begin_) ∧
    (let s := walkOver .fast [0xFF]
     s.resetPending = false ∧ s.port = [] ∧ s.reader.walking = true ∧ s.reader.begin_ < s.reader.end_ ∧
      s.mem.HoldsChunk s.reader.begin_ (.s1 127) ∧ s.reader.decoder = .fast ∧
      s.DecfAdmitted s.reader.begin_) :=
  ⟨⟨rfl, rfl, rfl, by decide, ⟨rfl, (holds_iff _ _ _).2 (by decide)⟩, rfl, (admitDecs_none_iff _ _ _).1 (by decide),
      by decide⟩,
    ⟨rfl, rfl, rfl, by decide, ⟨rfl, (holds_iff _ _ _).2 (by decide)⟩, rfl, (admitDecf_none_iff _ _).1 (by decide)⟩⟩

theorem witness_StepWithNothingToDoIsIdle :
    (State.reset.resetPending = false ∧ State.reset.port = [] ∧ State.reset.reader.walking = false) ∧
    (let s := walkOver .safe []
     s.resetPending = false ∧ s.port = [] ∧ s.reader.walking = true ∧ s.reader.end_ ≤ s.reader.begin_) := by decide

theorem witness_ReservedSelectCodeIsRefused :
    ({ room with port := [7] } : State).port = 7 :: [] ∧ 7 % 4 = 3 := by decide

theorem witness_WalkStopsAtACutChunk :
    let s := walkOver .safe [0x00, 0x01, 0x02, 0x03, 0x04, 0x05, 0x06, 0x07]
    s.resetPending = false ∧ s.port = [] ∧ s.reader.walking = true ∧ s.reader.decoder = .safe ∧
      s.reader.begin_ < s.reader.end_ ∧ s.DecsAdmitted s.reader.begin_ s.reader.end_ ∧
      s.reader.end_ - s.reader.begin_ < declaredLength (s.mem.readByte s.reader.begin_) :=
  ⟨rfl, rfl, rfl, rfl, by decide, (admitDecs_none_iff _ _ _).1 (by decide), by decide⟩

theorem witness_ExtraBytesIsLeast :
    (0xFFFFFFFFFFFFFF : U64).toNat < 2 ^ 56 ∧ extraBytes 0xFFFFFFFFFFFFFF = 7 := by decide

theorem witness_WorkingWordIsExact :
    (0xFFFFFFFFFFFFFF : U64).toNat < 2 ^ 56 ∧ (encWord 0xFFFFFFFFFFFFFF).toNat = 0xFFFFFFFFFFFFFF80 := by decide

/-- The highest window of the address space is admitted. -/
theorem witness_EncWritesTheCanonicalChunk :
    State.reset.EncAdmitted 0x1000 ∧ State.reset.EncAdmitted (2 ^ 64 - 9) :=
  ⟨(admitEnc_none_iff _ _).1 (by decide), (admitEnc_none_iff _ _).1 (by decide)⟩

theorem witness_EncLongForm : State.reset.EncAdmitted 0x1000 ∧ 2 ^ 56 ≤ (0x100000000000000 : U64).toNat :=
  ⟨(admitEnc_none_iff _ _).1 (by decide), by decide⟩

theorem witness_EncFrame : ∃ t, exec (.enc 300 0x1000) room = .next t := ⟨_, rfl⟩

/-- The first and the last tail byte of a two-byte chunk. -/
theorem witness_EncTailIsOpenUnderTheContract :
    room.cfg.tail = .contract ∧ (∃ t, exec (.enc 300 0x1000) room = .next t) ∧
      (encBytes 300).length ≤ 2 ∧ 2 < 9 ∧ (encBytes 300).length ≤ 8 ∧ 8 < 9 :=
  ⟨rfl, ⟨_, rfl⟩, by decide⟩

/-- A short chunk, whose `dest+8` stays as it was, and a long one, which has no tail. -/
theorem witness_EncTailOfTheReferenceDatapath :
    let s : State := { room with cfg := refTail }
    s.cfg.tail = .reference ∧ (∃ t, exec (.enc 300 0x1000) s = .next t) ∧ (encBytes 300).length = 2 ∧
      (∃ t, exec (.enc 0x100000000000000 0x1000) s = .next t) ∧ (encBytes 0x100000000000000).length = 9 :=
  ⟨rfl, ⟨_, rfl⟩, by decide, ⟨_, rfl⟩, by decide⟩

/-- Eight writable bytes are not enough (95_test_vectors.md section 3.3). -/
theorem witness_EncOutsideItsWindowIsRefused :
    let s : State := { room with writable := [⟨0x1000, 8⟩] }
    0x1000 ≤ 0x1008 ∧ 0x1008 < 0x1000 + 9 ∧ ¬ s.WritableAt 0x1008 := by
  refine ⟨by decide, by decide, ?_⟩
  rintro ⟨-, r, hr, h⟩
  obtain rfl := List.mem_singleton.1 hr
  exact absurd h.2 (by decide)

/-- Every class has both its ends here but the last, and the ends of neighbours stand in order. -/
theorem witness_EncLengthFollowsTheClasses :
    (∃ t, exec (.enc 127 0x1000) room = .next t) ∧ (127 : U64).toNat < 2 ^ 7 ∧
    (∃ t, exec (.enc 128 0x1000) room = .next t) ∧ 1 ≤ 1 ∧ 1 ≤ 7 ∧ 2 ^ (7 * 1) ≤ (128 : U64).toNat ∧
      (128 : U64).toNat < 2 ^ (7 * 1 + 7) ∧
    (∃ t, exec (.enc 0xFFFFFFFFFFFFFF 0x1000) room = .next t) ∧ 2 ^ (7 * 7) ≤ (0xFFFFFFFFFFFFFF : U64).toNat ∧
      (0xFFFFFFFFFFFFFF : U64).toNat < 2 ^ (7 * 7 + 7) ∧
    (∃ t, exec (.enc 0x100000000000000 0x1000) room = .next t) ∧ 2 ^ 56 ≤ (0x100000000000000 : U64).toNat ∧
      (0xFFFFFFFFFFFFFF : U64).toNat ≤ (0x100000000000000 : U64).toNat :=
  ⟨⟨_, rfl⟩, by decide, ⟨_, rfl⟩, by decide, by decide, by decide, by decide, ⟨_, rfl⟩, by decide, by decide,
    ⟨_, rfl⟩, by decide, by decide⟩

theorem witness_EncFirstByteIsZeroExactlyForLongForm :
    (∃ t, exec (.enc 0xFFFFFFFFFFFFFF 0x1000) room = .next t ∧ t.mem.readByte 0x1000 = 0x80) ∧
    ∃ t, exec (.enc 0x100000000000000 0x1000) room = .next t ∧ t.mem.readByte 0x1000 = 0x00 :=
  ⟨⟨_, rfl, by decide⟩, ⟨_, rfl, by decide⟩⟩

/-- A canonical short form and a canonical long form, both at their smallest value. -/
theorem witness_DecfReturnsTheChunk :
    (room.DecfAdmitted 0x1000 ∧ room.mem.HoldsChunk 0x1000 (.s2 300) ∧
      canonical (chunkLength (.s2 300)) (chunkValue (.s2 300)) = true) ∧
    (room.DecfAdmitted 0x1002 ∧ room.mem.HoldsChunk 0x1002 (.l9 0x100000000000000) ∧
      canonical (chunkLength (.l9 0x100000000000000)) (chunkValue (.l9 0x100000000000000)) = true) :=
  ⟨⟨(admitDecf_none_iff _ _).1 (by decide), ⟨rfl, (holds_iff _ _ _).2 (by decide)⟩, by decide⟩,
    ⟨(admitDecf_none_iff _ _).1 (by decide), ⟨rfl, (holds_iff _ _ _).2 (by decide)⟩, by decide⟩⟩

/-- The overlong chunks of `room`, under both settings of the parameter. -/
theorem witness_DecfOnAChunkThatIsNotCanonical :
    (room.DecfAdmitted 0x100B ∧ room.mem.HoldsChunk 0x100B (.s2 0) ∧
      canonical (chunkLength (.s2 0)) (chunkValue (.s2 0)) = false ∧ room.cfg.decfOutside = .refuse) ∧
    (let s : State := { room with cfg := openDecf }
     s.DecfAdmitted 0x100D ∧ s.mem.HoldsChunk 0x100D (.l9 5) ∧
      canonical (chunkLength (.l9 5)) (chunkValue (.l9 5)) = false ∧ s.cfg.decfOutside = .datapath) :=
  ⟨⟨(admitDecf_none_iff _ _).1 (by decide), ⟨rfl, (holds_iff _ _ _).2 (by decide)⟩, by decide, rfl⟩,
    ⟨(admitDecf_none_iff _ _).1 (by decide), ⟨rfl, (holds_iff _ _ _).2 (by decide)⟩, by decide, rfl⟩⟩

/-- The window that would pass the top of the address space. -/
theorem witness_DecfOutsideItsWindowIsRefused :
    2 ^ 64 - 8 ≤ 2 ^ 64 ∧ 2 ^ 64 < 2 ^ 64 - 8 + 9 ∧ ¬ room.ReadableAt (2 ^ 64) :=
  ⟨by decide, by decide, fun h => absurd h.1 (by decide)⟩

/-- A memory that differs in the byte just past the chunk. -/
theorem witness_DecfIgnoresWhatFollowsTheChunk :
    room.mem.AgreeOn (room.mem.writeByte 0x1002 0xAA) 0x1000 (0x1000 + declaredLength (room.mem.readByte 0x1000)) ∧
    ∃ t, exec (.decf 0x1000) room = .next t := by
  refine ⟨fun x h1 h2 => ?_, _, rfl⟩
  have h3 : x < 0x1002 := h2
  exact (readByte_writeByte_other _ _ (by omega)).symm

/-- Nothing is readable, so the empty window is admitted and the long one is not. -/
theorem witness_DecsOnAnEmptyWindow :
    2 ^ 64 - 1 < 2 ^ State.reset.cfg.aw ∧ ({ room with readable := [] } : State).DecsAdmitted 0x1000 0x1000 :=
  ⟨by decide, (admitDecs_none_iff _ _ _).1 (by decide)⟩

/-- One witness per clause: eight bytes, nine bytes with a zero last byte, nine bytes without. -/
theorem witness_DecsLongFormBranch :
    (room.DecsAdmitted 0x1002 0x100A ∧ 0x1002 < 0x100A ∧ room.mem.readByte 0x1002 = 0x00 ∧ 0x100A - 0x1002 < 9) ∧
    (room.DecsAdmitted 0x100D 0x1016 ∧ 0x100D < 0x1016 ∧ room.mem.readByte 0x100D = 0x00 ∧ 9 ≤ 0x1016 - 0x100D ∧
      room.mem.readByte (0x100D + 8) = 0x00) ∧
    (room.DecsAdmitted 0x1002 0x100B ∧ 0x1002 < 0x100B ∧ room.mem.readByte 0x1002 = 0x00 ∧ 9 ≤ 0x100B - 0x1002 ∧
      room.mem.readByte (0x1002 + 8) ≠ 0x00) :=
  ⟨⟨(admitDecs_none_iff _ _ _).1 (by decide), by decide⟩, ⟨(admitDecs_none_iff _ _ _).1 (by decide), by decide⟩,
    ⟨(admitDecs_none_iff _ _ _).1 (by decide), by decide⟩⟩

theorem witness_DecsShortFormBranch :
    (room.DecsAdmitted 0x1000 0x1001 ∧ 0x1000 < 0x1001 ∧ room.mem.readByte 0x1000 ≠ 0x00 ∧
      lsb8 (room.mem.readByte 0x1000) = 1 ∧ 0x1001 - 0x1000 < 1 + 1) ∧
    (room.DecsAdmitted 0x1000 0x1002 ∧ 0x1000 < 0x1002 ∧ room.mem.readByte 0x1000 ≠ 0x00 ∧
      lsb8 (room.mem.readByte 0x1000) = 1 ∧ 1 + 1 ≤ 0x1002 - 0x1000) :=
  ⟨⟨(admitDecs_none_iff _ _ _).1 (by decide), by decide⟩, ⟨(admitDecs_none_iff _ _ _).1 (by decide), by decide⟩⟩

theorem witness_DecsAlwaysCompletes : room.DecsAdmitted 0x1000 0x1000 ∧ room.DecsAdmitted 0 (2 ^ 64 - 1) :=
  ⟨(admitDecs_none_iff _ _ _).1 (by decide), (admitDecs_none_iff _ _ _).1 (by decide)⟩

/-- A memory that differs just past the window, one that differs just past the chunk, one that differs just past the
nine bytes of an overlong long form, and one that differs just past the first byte of a window too short by one byte. -/
theorem witness_DecsReadsInsideItsWindow :
    (∃ t, exec (.decs 0x1000 0x1004) room = .next t ∧ t.result = some (.decs .ok 300 0x1002)) ∧
    room.mem.AgreeOn (room.mem.writeByte 0x1004 0xAA) 0x1000 0x1004 ∧
    room.mem.AgreeOn (room.mem.writeByte 0x1002 0xAA) 0x1000 0x1002 ∧
    ((∃ t, exec (.decs 0x100D 0x1018) room = .next t) ∧ declaredLength (room.mem.readByte 0x100D) ≤ 0x1018 - 0x100D ∧
      room.mem.AgreeOn (room.mem.writeByte 0x1016 0xAA) 0x100D (0x100D + declaredLength (room.mem.readByte 0x100D))) ∧
    (∃ t, exec (.decs 0x1002 0x100A) room = .next t) ∧
    0x100A - 0x1002 < declaredLength (room.mem.readByte 0x1002) ∧
    (room.mem.writeByte 0x1003 0xAA).readByte 0x1002 = room.mem.readByte 0x1002 :=
  ⟨⟨_, rfl, by decide⟩, fun _ _ h => (readByte_writeByte_other _ _ (by omega)).symm,
    fun _ _ h => (readByte_writeByte_other _ _ (by omega)).symm,
    ⟨⟨_, rfl⟩, by decide, fun x _ h => by
      have h' : x < 0x1016 := h
      exact (readByte_writeByte_other _ _ (by omega)).symm⟩, ⟨_, rfl⟩, by decide, by decide⟩

/-- A window that ends exactly with the chunk. -/
theorem witness_DecsAgreesWithDecf :
    room.mem.Holds 0x1000 (encBytes 300) ∧
    (∃ t, exec (.decf 0x1000) room = .next t ∧ t.result = some (.decf 300 2)) ∧ 0x1000 + 2 ≤ 0x1002 ∧
    room.DecsAdmitted 0x1000 0x1002 :=
  ⟨(holds_iff _ _ _).2 (by decide), ⟨_, rfl, by decide⟩, by decide, (admitDecs_none_iff _ _ _).1 (by decide)⟩

theorem witness_DecsLongerWindowKeepsASuccess :
    SucceedsWith room 300 0x1002 (exec (.decs 0x1000 0x1002) room) ∧ 0x1002 ≤ 2 ^ 64 - 1 ∧
      room.DecsAdmitted 0x1000 (2 ^ 64 - 1) :=
  ⟨rfl, by decide, (admitDecs_none_iff _ _ _).1 (by decide)⟩

/-- Bounds out of order, an end of `AW` + 1 bits, and a window whose first byte is not readable. -/
theorem witness_DecsOutsideItsWindowIsRefused :
    0x3000 < 0x3002 ∧ 2 ^ room.cfg.aw ≤ 2 ^ 64 ∧ 0x3000 ≤ 0x3000 ∧ 0x3000 < 0x3001 ∧
      ¬ ({ room with readable := [] } : State).ReadableAt 0x3000 :=
  ⟨by decide, by decide, by decide, by decide, fun ⟨_, _, hr, _⟩ => absurd hr List.not_mem_nil⟩

theorem witness_SafeWalkReadsAShortForm :
    let s := walkOver .safe [0x80, 0xFF, 0xFF, 0xFF, 0xFF, 0xFF, 0xFF, 0xFF]
    isChunk (.s8 0xFFFFFFFFFFFFFF) = true ∧ chunkLength (.s8 0xFFFFFFFFFFFFFF) ≤ 8 ∧ s.reader.decoder = .safe ∧
      s.DecsAdmitted s.reader.begin_ s.reader.end_ ∧
      chunkLength (.s8 0xFFFFFFFFFFFFFF) ≤ s.reader.end_ - s.reader.begin_ :=
  ⟨rfl, by decide, rfl, (admitDecs_none_iff _ _ _).1 (by decide), by decide⟩

/-- Both clauses, at the two values that meet at 2^56. -/
theorem witness_SafeWalkReadsALongForm :
    let s := walkOver .safe [0, 0, 0, 0, 0, 0, 0, 0, 1]
    s.reader.decoder = .safe ∧ s.DecsAdmitted s.reader.begin_ s.reader.end_ ∧
      9 ≤ s.reader.end_ - s.reader.begin_ ∧ 2 ^ 56 ≤ (0x100000000000000 : BitVec 64).toNat ∧
      (0xFFFFFFFFFFFFFF : BitVec 64).toNat < 2 ^ 56 :=
  ⟨rfl, (admitDecs_none_iff _ _ _).1 (by decide), by decide, by decide, by decide⟩

/-- A canonical chunk, one that is not under `datapath`, and the same under `refuse`. -/
theorem witness_FastWalkReadsAChunk :
    let s := walkOver .fast [0x02, 0x02]
    let d : State := { s with cfg := openDecf }
    isChunk (.s2 128) = true ∧ s.reader.decoder = .fast ∧ s.DecfAdmitted s.reader.begin_ ∧
      canonical (chunkLength (.s2 128)) (chunkValue (.s2 128)) = true ∧
      d.DecfAdmitted d.reader.begin_ ∧ d.cfg.decfOutside = .datapath ∧
      canonical (chunkLength (.s2 127)) (chunkValue (.s2 127)) = false ∧ s.cfg.decfOutside = .refuse :=
  ⟨rfl, rfl, (admitDecf_none_iff _ _).1 (by decide), by decide, (admitDecf_none_iff _ _).1 (by decide), rfl,
    by decide, rfl⟩

/-- A walk step that succeeds, one that fails, and one that is refused. -/
theorem witness_SafeWalkStepIsDecs :
    (let s := walkOver .safe [0xB2, 0x04]
     s.resetPending = false ∧ s.port = [] ∧ s.reader.walking = true ∧ s.reader.decoder = .safe ∧
      s.reader.begin_ < s.reader.end_ ∧
      resultOf (exec (.decs s.reader.begin_ s.reader.end_) s) = some (.decs .ok 300 0x3002)) ∧
    statusOf (exec (.decs 0x3000 0x3001) (walkOver .safe [0xB2])) = some .eTruncated ∧
    whyOf (exec (.decs 0x3000 0x3001) { walkOver .safe [0xB2] with readable := [] }) = some .decsWindow := by
  decide

theorem witness_FastWalkStepIsDecf :
    (let s := walkOver .fast [0xB2, 0x04]
     s.resetPending = false ∧ s.port = [] ∧ s.reader.walking = true ∧ s.reader.decoder = .fast ∧
      s.reader.begin_ < s.reader.end_ ∧ resultOf (exec (.decf s.reader.begin_) s) = some (.decf 300 2)) ∧
    whyOf (exec (.decf 0x3000) (walkOver .fast [0x02, 0x00])) = some .decfChunk := by decide

/-- Both clauses: the value written and read back in the state after, and the value read written elsewhere. -/
theorem witness_EncThenDecfReturnsTheValue :
    (∃ t, exec (.enc 300 0x1000) State.reset = .next t ∧ t.result = some (.enc 2) ∧
      t.mem.AgreeOn t.mem 0x1000 (0x1000 + 2) ∧ t.DecfAdmitted 0x1000) ∧
    room.mem.Holds 0x1000 (encBytes 300) ∧
    (∃ t, exec (.decf 0x1000) room = .next t ∧ t.result = some (.decf 300 2)) ∧
    ∃ w, exec (.enc 300 0x2000) room = .next w :=
  ⟨⟨_, rfl, rfl, fun _ _ _ => rfl, (admitDecf_none_iff _ _).1 (by decide)⟩, (holds_iff _ _ _).2 (by decide),
    ⟨_, rfl, by decide⟩, ⟨_, rfl⟩⟩

theorem witness_EncThenDecsReturnsTheValue :
    ∃ t, exec (.enc 300 0x1000) State.reset = .next t ∧ t.result = some (.enc 2) ∧
      t.mem.AgreeOn t.mem 0x1000 (0x1000 + 2) ∧ 0x1000 + 2 ≤ 0x1002 ∧ t.DecsAdmitted 0x1000 0x1002 :=
  ⟨_, rfl, rfl, fun _ _ _ => rfl, by decide, (admitDecs_none_iff _ _ _).1 (by decide)⟩

/-- A stream of two chunks whose last one fills its window, in a buffer of exactly the stream's 11 bytes: 45_stream.md
R174 asks for `9 - len_n = 0` bytes more. -/
theorem witness_AppendWritesTheStream :
    let s : State := { State.reset with writable := [⟨0x1000, 11⟩] }
    (streamBytes [300, 0x100000000000000]).length = 11 ∧
    ∀ x, 0x1000 ≤ x → x < appendPast [300, 0x100000000000000] 0x1000 → s.WritableAt x ∧ ¬ s.DeviceAt x ∧ ¬ s.UsedAt x := by
  refine ⟨by decide, fun x h1 h2 => ⟨⟨?_, ⟨0x1000, 11⟩, List.mem_singleton.2 rfl, h1, h2⟩, ?_, ?_⟩⟩
  · exact lt_trans h2 (by decide)
  · rintro ⟨r, hr, -⟩
    exact absurd hr List.not_mem_nil
  · rintro ⟨c, hc, -⟩
    exact absurd hc List.not_mem_nil

/-- A stream with an overlong chunk in it, and its only split. -/
theorem witness_StreamSplitsInOneWay :
    splitStream [0x02, 0x00, 0xB2, 0x04] = .ok [.s2 0, .s2 300] ∧
    (∀ i ∈ [Instr.s2 0, .s2 300], isChunk i = true) ∧
    [0x02, 0x00, 0xB2, 0x04] = [Instr.s2 0, .s2 300].flatMap encodeChunk := by decide

theorem witness_StreamRoundTrip :
    ∃ t, appendStream [0, 300] 0x1000 State.reset = .next (0x1003, t) ∧ t.mem.AgreeOn t.mem 0x1000 0x1003 ∧
      t.DecsAdmitted 0x1000 0x1003 ∧ t.ReadAdmitted 0x1000 (0x1003 + 8) :=
  ⟨_, rfl, fun _ _ _ => rfl, (admitDecs_none_iff _ _ _).1 (by decide),
    (read_admit_none_iff _ .decfWindow _ _).1 (by decide)⟩

/-- The stream of 300 and the first eight bytes of the chunk of 2^56. -/
theorem witness_WalkOfACutStream :
    room.mem.Holds 0x1000 (streamBytes [300] ++ (encBytes 0x100000000000000).take 8) ∧ 0 < 8 ∧
      8 < (encBytes 0x100000000000000).length ∧
      room.DecsAdmitted 0x1000 (0x1000 + (streamBytes [300]).length + 8) :=
  ⟨(holds_iff _ _ _).2 (by decide), by decide, by decide, (admitDecs_none_iff _ _ _).1 (by decide)⟩

/-- One witness per pseudo-operation, and a `DECS` that fails. -/
theorem witness_PseudoOperationsConvert :
    (∃ t, exec (.enc 300 0x1000) room = .next t ∧ t.result = some (.enc 2)) ∧
    (∃ t, exec (.decf 0x1000) room = .next t ∧ t.result = some (.decf 300 2)) ∧
    (∃ t, exec (.decs 0x1000 0x1002) room = .next t ∧ t.result = some (.decs .ok 300 0x1002)) ∧
    ∃ t v a, exec (.decs 0x1000 0x1001) room = .next t ∧ t.result = some (.decs .eTruncated v a) ∧
      Status.eTruncated ≠ .ok :=
  ⟨⟨_, rfl, by decide⟩, ⟨_, rfl, by decide⟩, ⟨_, rfl, by decide⟩, ⟨_, _, _, rfl, rfl, by decide⟩⟩

theorem witness_MemWriteThenMemRead :
    (0 ≤ 8 ∧ (0 : U64).toNat < 2 ^ (8 * 0)) ∧ 8 ≤ 8 ∧ (0xFFFFFFFFFFFFFFFF : U64).toNat < 2 ^ (8 * 8) := by decide

theorem witness_DecodersWriteNoMemory : isEnc (.decf 0x1000) = false ∧ ∃ t, exec (.decf 0x1000) room = .next t :=
  ⟨rfl, _, rfl⟩

theorem witness_EncReadsNoMemory : ∃ t, exec (.enc 300 0x1000) room = .next t := ⟨_, rfl⟩

theorem witness_StepKeepsTheInvariant :
    ∃ s t, s.inv = true ∧ step s = .next t ∧ t.mem ≠ s.mem :=
  ⟨{ State.reset with cfg := refTail, port := [0] }, _, by decide, rfl, by decide⟩

theorem witness_StepKeepsTheLaunch : ∃ t, step { room with port := [0x1000 * 4 + 1] } = .next t := ⟨_, rfl⟩

/-- Two states with different pasts. -/
theorem witness_OperationsForgetThePast :
    isChunk (.enc 300 0x1000) = false ∧ room.SameForCodec { room with draws := 7, result := some (.enc 1) } ∧
      ∃ t, exec (.enc 300 0x1000) room = .next t :=
  ⟨rfl, ⟨rfl, rfl, rfl, rfl, rfl, rfl⟩, _, rfl⟩

/-- An `ENC` and a `DECF` whose windows only touch. -/
theorem witness_NonConflictingOperationsCommute :
    isChunk (.enc 300 0x1009) = false ∧ isChunk (.decf 0x1000) = false ∧
      ¬ Conflict (.enc 300 0x1009) (.decf 0x1000) ∧
      ∃ si sij, exec (.enc 300 0x1009) room = .next si ∧ exec (.decf 0x1000) si = .next sij := by
  refine ⟨rfl, rfl, ?_, _, _, rfl, rfl⟩
  rintro ⟨-, x, ⟨h1, -⟩, -, h4⟩
  exact absurd (Nat.lt_of_le_of_lt h1 h4) (by decide)

/-- The last byte of each window is claimed. -/
theorem witness_AliasedOperationsAreRefused :
    let s : State := { room with busy := [⟨⟨0x1008, 1⟩, true⟩] }
    (0x1000 ≤ 0x1008 ∧ 0x1008 < 0x1000 + 9 ∧ s.UsedAt 0x1008) ∧ s.WrittenAt 0x1008 ∧ 0x1008 < 0x1009 ∧
      whyOf (exec (.enc 300 0x1000) s) = some .aliasing :=
  ⟨⟨by decide, by decide, _, List.mem_singleton.2 rfl, by decide, by decide⟩,
    ⟨_, List.mem_singleton.2 rfl, rfl, by decide, by decide⟩, by decide, by decide⟩

theorem witness_ResetCutsOffAnEnc :
    let s : State := { room with port := [0], resetPending := true }
    s.resetPending = true ∧ s.port = 0 :: [] ∧ decodeCommand s.cfg.aw 0 = .ok (.enc 0 0) ∧ s.EncAdmitted 0 :=
  ⟨rfl, rfl, rfl, (admitEnc_none_iff _ _).1 (by decide)⟩

/-- A command, and the step of a walk. -/
theorem witness_ResetCutsOffADecoder :
    (let s : State := { walkOver .safe [0xB2, 0x04] with resetPending := true }
     s.resetPending = true ∧ s.port = [] ∧ s.reader.walking = true ∧ s.reader.begin_ < s.reader.end_ ∧
      ∃ u, step { s with resetPending := false } = .next u) ∧
    let s : State := { room with port := [0x1000 * 4 + 1], resetPending := true }
    s.resetPending = true ∧ s.port = (0x1000 * 4 + 1) :: [] ∧
      decodeCommand s.cfg.aw (0x1000 * 4 + 1) = .ok (.decf 0x1000) ∧ isEnc (.decf 0x1000) = false ∧
      ∃ u, exec (.decf 0x1000) { s with port := [] } = .next u :=
  ⟨⟨rfl, rfl, rfl, by decide, _, rfl⟩, rfl, rfl, by decide, rfl, _, rfl⟩

theorem witness_ResetLeavesNoResult :
    let s : State := { room with resetPending := true, result := some (.enc 9) }
    s.resetPending = true ∧ s.port = [] ∧ s.reader.walking = false ∧ ∃ t, step s = .next t :=
  ⟨rfl, rfl, rfl, _, rfl⟩

end Sys2Proof.Tests
end

section
/-! PROOFS. What a step can do, said once, and that no step changes what the caller fixed at launch. -/

namespace Sys2Proof.Machine

/-! ## Where a step's next state comes from -/

/-- A chunk is run in the state it was fetched in. -/
theorem fetchChunk_run {s u : State} {i : Instr} (h : fetchChunk s = .run i u) : u = s := by
  unfold fetchChunk at h
  cases ha : admitReader s with
  | some why => simp [ha] at h
  | none =>
    simp only [ha] at h
    split_ifs at h
    split at h
    · exact (Fetch.run.inj h).2.symm
    · cases h

/-- An instruction comes from the head of the port, or from the cursor of a walk that goes on (30_encoding.md R82,
R85). -/
theorem fetch_run {s u : State} {i : Instr} (h : fetch s = .run i u) :
    (∃ w ws, s.port = w :: ws ∧ decodeCommand s.cfg.aw w = .ok i ∧ u = s.withPort ws) ∨
      (s.port = [] ∧ walkGoesOn s = true ∧ fetchChunk s = .run i s ∧ u = s) := by
  unfold fetch at h
  cases hp : s.port with
  | nil =>
    simp only [hp] at h
    split_ifs at h with hw
    obtain rfl := fetchChunk_run h
    exact .inr ⟨rfl, hw, h, rfl⟩
  | cons w ws =>
    cases hd : decodeCommand s.cfg.aw w with
    | error e => simp [hp, hd] at h
    | ok j =>
      simp only [hp, hd, Fetch.run.injEq] at h
      obtain ⟨rfl, rfl⟩ := h
      exact .inl ⟨w, ws, rfl, hd, rfl⟩

/-- Every way a step without a reset answers a next state (20_memory.md R52). -/
theorem stepRun_next {s t : State} (h : stepRun s = .next t) :
    (fetch s = .idle ∧ t = s) ∨ (∃ i u, fetch s = .run i u ∧ exec i u = .next t) ∨
      (fetch s = .cutShort ∧ t = walkTruncated s) := by
  unfold stepRun at h
  cases hf : fetch s with
  | idle => simp only [hf, Host.Outcome.next.injEq] at h; exact .inl ⟨rfl, h.symm⟩
  | run i u => simp only [hf] at h; exact .inr (.inl ⟨i, u, rfl, h⟩)
  | cutShort => simp only [hf, Host.Outcome.next.injEq] at h; exact .inr (.inr ⟨rfl, h.symm⟩)
  | refuse why => simp [hf] at h

/-- An operation that a reset cuts off is one that would have completed (70_reset_and_hazards.md R221; log 19). -/
theorem cutOff_next {i : Instr} {s t : State} (h : cutOff i s = .next t) :
    (∃ v, exec i s = .next v) ∧ t = resetDone (cutEffect i s) := by
  unfold cutOff at h
  cases he : exec i s with
  | next v => simp only [he, Host.Outcome.next.injEq] at h; exact ⟨⟨v, rfl⟩, h.symm⟩
  | fault f => simp [he] at h
  | refused why => simp [he] at h

/-- Every way a step with a reset answers a next state (70_reset_and_hazards.md R220, R221). -/
theorem stepReset_next {s t : State} (h : stepReset s = .next t) :
    ((fetch s = .idle ∨ fetch s = .cutShort) ∧ t = resetDone s) ∨
      (∃ i u v, fetch s = .run i u ∧ exec i u = .next v ∧ t = resetDone (cutEffect i u)) := by
  unfold stepReset at h
  cases hf : fetch s with
  | idle => simp only [hf, Host.Outcome.next.injEq] at h; exact .inl ⟨.inl rfl, h.symm⟩
  | run i u =>
    simp only [hf] at h
    obtain ⟨⟨v, hv⟩, rfl⟩ := cutOff_next h
    exact .inr ⟨i, u, v, rfl, hv, rfl⟩
  | cutShort => simp only [hf, Host.Outcome.next.injEq] at h; exact .inl ⟨.inr rfl, h.symm⟩
  | refuse why => simp [hf] at h

/-- Every step is one of the two. -/
theorem step_next {s t : State} (h : step s = .next t) :
    (s.resetPending = true ∧ stepReset s = .next t) ∨ (s.resetPending = false ∧ stepRun s = .next t) := by
  unfold step at h
  cases hr : s.resetPending with
  | true => rw [hr, if_pos rfl] at h; exact .inl ⟨rfl, h⟩
  | false => rw [hr, if_neg Bool.false_ne_true] at h; exact .inr ⟨rfl, h⟩

/-! ## What the caller fixed at launch -/

/-- What the caller fixed at launch: the parameters of 00_scope.md R5, the grants and the devices (20_memory.md R54),
and the claims of other agents (log 11). -/
def State.launch (s : State) : Config.Params × List Region × List Region × List Region × List Claim :=
  (s.cfg, s.readable, s.writable, s.devices, s.busy)

section
variable (s : State)

@[simp] theorem State.launch_withMem (m : Memory) : (s.withMem m).launch = s.launch := rfl
@[simp] theorem State.launch_withResult (r : Option Result) : (s.withResult r).launch = s.launch := rfl
@[simp] theorem State.launch_withPort (p : List Nat) : (s.withPort p).launch = s.launch := rfl
@[simp] theorem State.launch_moveCursor (a : Nat) : (s.moveCursor a).launch = s.launch := rfl
@[simp] theorem State.launch_stopWalk : s.stopWalk.launch = s.launch := rfl
@[simp] theorem State.launch_spoil (a n : Nat) : (s.spoil a n).launch = s.launch := rfl
@[simp] theorem launch_failDecs (cause : Status) : (failDecs s cause).launch = s.launch := rfl
@[simp] theorem launch_succeedDecs (v : U64) (a : Nat) : (succeedDecs s v a).launch = s.launch := rfl
@[simp] theorem launch_fastRead (L : Nat) (V : U64) : (fastRead L V s).launch = s.launch := rfl
@[simp] theorem launch_walkTruncated : (walkTruncated s).launch = s.launch := rfl
@[simp] theorem launch_resetDone : (resetDone s).launch = s.launch := rfl

@[simp] theorem launch_encTail (dest len : Nat) : (encTail s dest len).launch = s.launch := by
  unfold encTail
  cases s.cfg.tail with
  | contract => exact s.launch_spoil _ _
  | reference => rfl

@[simp] theorem launch_decsShort (b avail L : Nat) : (decsShort s b avail L).launch = s.launch := by
  unfold decsShort
  split_ifs
  · exact launch_failDecs s _
  · exact launch_succeedDecs s _ _

@[simp] theorem launch_decsBody (b avail : Nat) : (decsBody s b avail).launch = s.launch := by
  obtain h | ⟨-, -, -, h⟩ | ⟨-, -, -, h⟩ | ⟨-, -, h⟩ := decsBody_cases s b avail <;> simp [h]

@[simp] theorem launch_safeRead (L : Nat) (V : U64) : (safeRead L V s).launch = s.launch := by
  unfold safeRead
  split_ifs <;> simp

@[simp] theorem launch_cutEffect (i : Instr) : (cutEffect i s).launch = s.launch := by
  cases i with
  | enc v dest => exact s.launch_spoil dest 9
  | _ => rfl

end

theorem readChunk_keeps_launch {s t : State} {L : Nat} {V : U64} (h : readChunk L V s = .next t) :
    t.launch = s.launch := by
  obtain ⟨-, -, rfl⟩ | ⟨-, -, -, rfl⟩ := readChunk_next h
  · exact launch_safeRead s L V
  · exact launch_fastRead s L V

theorem exec_keeps_launch {i : Instr} {s t : State} (h : exec i s = .next t) : t.launch = s.launch := by
  obtain ⟨v, d, -, -, rfl⟩ | ⟨a, -, -, -, rfl⟩ | ⟨b, e, -, -, rfl⟩ | ⟨-, hr⟩ := exec_next h
  · simp
  · simp
  · simp
  · exact readChunk_keeps_launch hr

theorem fetch_keeps_launch {i : Instr} {s u : State} (h : fetch s = .run i u) : u.launch = s.launch := by
  obtain ⟨w, ws, -, -, rfl⟩ | ⟨-, -, -, rfl⟩ := fetch_run h
  · exact s.launch_withPort ws
  · rfl

theorem stepRun_keeps_launch {s t : State} (h : stepRun s = .next t) : t.launch = s.launch := by
  obtain ⟨-, rfl⟩ | ⟨i, u, hf, he⟩ | ⟨-, rfl⟩ := stepRun_next h
  · rfl
  · exact (exec_keeps_launch he).trans (fetch_keeps_launch hf)
  · exact launch_walkTruncated s

theorem stepReset_keeps_launch {s t : State} (h : stepReset s = .next t) : t.launch = s.launch := by
  obtain ⟨-, rfl⟩ | ⟨i, u, v, hf, -, rfl⟩ := stepReset_next h
  · exact launch_resetDone s
  · calc (resetDone (cutEffect i u)).launch = u.launch := by simp
      _ = s.launch := fetch_keeps_launch hf

theorem step_keeps_launch {s t : State} (h : step s = .next t) : t.launch = s.launch := by
  obtain ⟨-, hr⟩ | ⟨-, hr⟩ := step_next h
  · exact stepReset_keeps_launch hr
  · exact stepRun_keeps_launch hr

/-- Settles O53: every next state is reached by updates of the memory, the result, the reader, the port, the reset
line and the draw counter, and none of these touches what the caller fixed at launch. -/
theorem stepKeepsTheLaunch : Obligations.StepKeepsTheLaunch := fun _ _ h => step_keeps_launch h

end Sys2Proof.Machine
end

section
/-! PROOFS. The length `ENC` reports is that of the canonical chunk, and the bytes it does not leave open. -/

namespace Sys2Proof.Machine

/-! ## The length of the canonical chunk (40_encoder.md R104, R106, R107) -/

theorem or_one_toNat (v : U64) : (v ||| 1).toNat = 2 * (v.toNat / 2) + 1 := by
  have hd : (v.toNat ||| 1) / 2 = v.toNat / 2 := by simp [Nat.or_div_two]
  have hm : (v.toNat ||| 1) % 2 = 1 := by simp
  have hv : (v ||| 1).toNat = v.toNat ||| 1 := BitVec.toNat_or v 1
  omega

/-- A short form with `k` extra bytes holds the value, and one with fewer does not (40_encoder.md R104). -/
theorem extraBytes_class (v : U64) :
    classMin (extraBytes v + 1) ≤ v.toNat ∧ v.toNat < 2 ^ (7 * (extraBytes v + 1)) := by
  have hv := or_one_toNat v
  obtain ⟨hlo, hhi⟩ := msb64_bounds (x := v ||| 1) (fun h => by rw [h] at hv; simp at hv)
  have hk : extraBytes v = msb64 (v ||| 1) / 7 := rfl
  constructor
  · rw [classMin]
    split_ifs with h0
    · exact Nat.zero_le _
    · have hpow : 2 ^ (7 * (extraBytes v + 1 - 1)) ≤ 2 ^ msb64 (v ||| 1) :=
        Nat.pow_le_pow_right (by omega) (by omega)
      have heven : 2 ^ (7 * (extraBytes v + 1 - 1)) = 2 ^ (7 * extraBytes v - 1) * 2 := by
        rw [← pow_succ]
        congr 1
        omega
      omega
  · have hpow : 2 ^ (msb64 (v ||| 1) + 1) ≤ 2 ^ (7 * (extraBytes v + 1)) :=
      Nat.pow_le_pow_right (by omega) (by omega)
    omega

theorem extraBytes_le {v : U64} (h : v.toNat < Config.longMin) : extraBytes v ≤ 7 := by
  by_contra hgt
  have hmin := (extraBytes_class v).1
  rw [classMin, if_neg (by omega)] at hmin
  have hpow : 2 ^ (7 * 8) ≤ 2 ^ (7 * (extraBytes v + 1 - 1)) := Nat.pow_le_pow_right (by omega) (by omega)
  simp only [Config.longMin] at h
  omega

/-- The length `ENC` reports is that of the form the class table gives the value (30_encoding.md R76; 40_encoder.md
R106, R107). -/
theorem chunkLength_formFor (v : U64) : chunkLength (formFor v) = encLen v := by
  unfold encLen
  split_ifs with h
  · have hk := extraBytes_le h
    exact chunkLength_eq_of_class (by omega) (by omega) (extraBytes_class v).1 fun _ => (extraBytes_class v).2
  · refine chunkLength_eq_of_class (by omega) le_rfl ?_ (by omega)
    simpa [classMin, Config.longMin] using h

theorem length_encBytes (v : U64) : (encBytes v).length = encLen v :=
  (length_encodeChunk _).trans (chunkLength_formFor v)

theorem encLen_bounds (v : U64) : 1 ≤ encLen v ∧ encLen v ≤ 9 :=
  chunkLength_formFor v ▸ chunkLength_bounds (isChunk_formFor v)

/-! ## What `ENC` leaves (40_encoder.md R106 to R109) -/

@[simp] theorem encAfter_result (s : State) (v : U64) (dest : Nat) :
    (encAfter s v dest).result = some (.enc (encLen v)) := by
  unfold encAfter encTail
  split <;> rfl

/-- A byte `ENC` does not leave open is what the reference datapath stores there. -/
theorem readByte_encAfter {s : State} {v : U64} {dest x : Nat} (h : ¬ LeftOpen s.cfg (.enc v dest) x) :
    (encAfter s v dest).mem.readByte x = (encStore s.mem v dest).readByte x := by
  have hlen := encLen_bounds v
  unfold encAfter encTail
  cases ht : s.cfg.tail with
  | reference => simp [ht]
  | contract =>
    simp only [LeftOpen, ht, true_and, length_encBytes] at h
    simp only [State.withResult_cfg, State.withMem_cfg, ht, State.spoil_mem]
    exact readByte_writeAnys_outside _ _ _ _ (by omega)

end Sys2Proof.Machine
end

section
/-! PROOFS. An operation is a function of its operands and of what the codec can see (10_state.md R20). -/

namespace Sys2Proof.Machine

/-! ## The contract -/

variable {s t : State}

theorem State.SameForCodec.encAdmitted (h : s.SameForCodec t) {dest : Nat} (ha : s.EncAdmitted dest) :
    t.EncAdmitted dest := by
  obtain ⟨hcfg, -, -, hwritable, hdevices, hbusy⟩ := h
  simpa only [State.EncAdmitted, State.WritableAt, State.DeviceAt, State.UsedAt, hcfg, hwritable, hdevices, hbusy]
    using ha

theorem State.SameForCodec.readAdmitted (h : s.SameForCodec t) {a e : Nat} (ha : s.ReadAdmitted a e) :
    t.ReadAdmitted a e := by
  obtain ⟨hcfg, -, hreadable, -, hdevices, hbusy⟩ := h
  simpa only [State.ReadAdmitted, State.ReadableAt, State.DeviceAt, State.WrittenAt, hcfg, hreadable, hdevices, hbusy]
    using ha

theorem State.SameForCodec.decsAdmitted (h : s.SameForCodec t) {b e : Nat} (ha : s.DecsAdmitted b e) :
    t.DecsAdmitted b e := by
  obtain ⟨hle, hend, hread⟩ := ha
  exact ⟨hle, h.1 ▸ hend, h.readAdmitted hread⟩

theorem State.SameForCodec.decfContract_eq (h : s.SameForCodec t) (valid : Bool) :
    decfContract t valid = decfContract s valid := by
  simp only [decfContract, h.1]

/-! ## How `DECS` ends -/

/-- Two states with one memory end `DECS` in the same way: the same failure, or the same result fields. -/
theorem decsBody_same_end (h : t.mem = s.mem) (b avail : Nat) :
    (∃ cause, (cause = .eTruncated ∨ cause = .eNoncanonical) ∧
        decsBody s b avail = failDecs s cause ∧ decsBody t b avail = failDecs t cause) ∨
      ∃ v a, decsBody s b avail = succeedDecs s v a ∧ decsBody t b avail = succeedDecs t v a := by
  unfold decsBody decsLong decsShort
  rw [h]
  split_ifs
  · exact .inl ⟨.eTruncated, .inl rfl, rfl, rfl⟩
  · exact .inl ⟨.eTruncated, .inl rfl, rfl, rfl⟩
  · exact .inl ⟨.eNoncanonical, .inr rfl, rfl, rfl⟩
  · exact .inr ⟨_, _, rfl, rfl⟩
  · exact .inl ⟨.eTruncated, .inl rfl, rfl, rfl⟩
  · exact .inr ⟨_, _, rfl, rfl⟩

/-- Of a failure a caller may use the reported cause alone (42_decoder_safe.md R157). -/
theorem meaningOf_failDecs (s : State) {cause : Status} (h : cause = .eTruncated ∨ cause = .eNoncanonical) :
    meaningOf (failDecs s cause).result = some (.decs (reportCause s.cfg.errDetail cause) 0 0) := by
  obtain rfl | rfl := h <;> cases hd : s.cfg.errDetail <;> simp [failDecs, reportCause, hd, meaningOf]

theorem meaningOf_decsBody (h : s.SameForCodec t) (b avail : Nat) :
    meaningOf (decsBody t b avail).result = meaningOf (decsBody s b avail).result := by
  obtain ⟨hcfg, hmem, -⟩ := h
  obtain ⟨cause, hcause, hs, ht⟩ | ⟨v, a, hs, ht⟩ := decsBody_same_end hmem b avail
  · rw [hs, ht, meaningOf_failDecs s hcause, meaningOf_failDecs t hcause, hcfg]
  · rw [hs, ht]; rfl

@[simp] theorem decsBody_mem (s : State) (b avail : Nat) : (decsBody s b avail).mem = s.mem := by
  obtain ⟨cause, -, h, -⟩ | ⟨v, a, h, -⟩ := decsBody_same_end (rfl : s.mem = s.mem) b avail <;> rw [h] <;> rfl

/-! ## The operations -/

/-- Settles O54: each operation is admitted, and ends, by the parameters, memory, grants and claims alone; what the
draw counter decides is the fields of a failure, which `meaningOf` leaves out, and the bytes `ENC` leaves open. -/
theorem operationsForgetThePast : Obligations.OperationsForgetThePast := by
  intro i s t s' hi hst hexec
  obtain ⟨v, dest, rfl, hadm, rfl⟩ | ⟨src, rfl, hadm, hvalid, rfl⟩ | ⟨b, e, rfl, hadm, rfl⟩ | ⟨hc, -⟩ :=
    exec_next hexec
  · refine ⟨encAfter t v dest, execEnc_of_admitted (hst.encAdmitted hadm) v, by simp only [encAfter_result], ?_⟩
    intro x hx
    have hx' : ¬ LeftOpen t.cfg (.enc v dest) x := hst.1 ▸ hx
    rw [readByte_encAfter hx, readByte_encAfter hx', hst.2.1]
  · have hmem : t.mem = s.mem := hst.2.1
    have hvalid' : decfContract t (validChunkAt t.mem src) = none := by rw [hmem, hst.decfContract_eq, hvalid]
    refine ⟨_, execDecf_of_admitted (hst.readAdmitted hadm) hvalid', ?_, fun x _ => ?_⟩
    · rw [hmem]; rfl
    · simp only [State.withResult_mem, hmem]
  · refine ⟨_, execDecs_of_admitted (hst.decsAdmitted hadm), meaningOf_decsBody hst b _, fun x _ => ?_⟩
    rw [decsBody_mem, decsBody_mem, hst.2.1]
  · exact absurd (hi.symm.trans hc) Bool.false_ne_true

end Sys2Proof.Machine
end

section
/-! PROOFS. The invariant: it holds after reset, and every step keeps it. -/

namespace Sys2Proof.Machine

/-! ## Memory -/

/-- The part of the invariant that speaks of memory: canonical form, addresses below `bound`, draws below `d`. -/
def Memory.Sound (m : Memory) (bound d : Nat) : Prop :=
  m.wf = true ∧ m.within bound = true ∧ m.drawnBelow d = true

section
variable {m : Memory} {bound d : Nat}

theorem Memory.within_iff : m.within bound = true ↔ (∀ p ∈ m.cells, p.1 < bound) ∧ ∀ p ∈ m.free, p.1 < bound := by
  simp [Memory.within]

theorem Memory.drawnBelow_iff : m.drawnBelow d = true ↔ ∀ p ∈ m.free, p.2 < d := by
  simp [Memory.drawnBelow]

theorem Memory.sound_mono (h : m.Sound bound d) {d' : Nat} (hd : d ≤ d') : m.Sound bound d' := by
  obtain ⟨hwf, hin, hdrawn⟩ := h
  exact ⟨hwf, hin, drawnBelow_iff.2 fun p hp => (drawnBelow_iff.1 hdrawn p hp).trans_le hd⟩

theorem Memory.sound_writeByte (h : m.Sound bound d) {a : Nat} (ha : a < bound) (b : Byte) :
    (m.writeByte a b).Sound bound d := by
  obtain ⟨hwf, hin, hdrawn⟩ := h
  obtain ⟨hcells, hfree⟩ := within_iff.1 hin
  refine ⟨writeByte_wf hwf a b, within_iff.2 ⟨fun p hp => ?_, fun p hp => hfree p (mem_dropAt hp).1⟩,
    drawnBelow_iff.2 fun p hp => drawnBelow_iff.1 hdrawn p (mem_dropAt hp).1⟩
  simp only [Memory.writeByte] at hp
  split_ifs at hp
  · exact hcells p (mem_dropAt hp).1
  · obtain rfl | hp := mem_putAt hp
    · exact ha
    · exact hcells p hp

theorem Memory.sound_writeAny (h : m.Sound bound d) {a n : Nat} (ha : a < bound) (hn : n < d) :
    (m.writeAny a n).Sound bound d := by
  obtain ⟨hwf, hin, hdrawn⟩ := h
  obtain ⟨hcells, hfree⟩ := within_iff.1 hin
  refine ⟨writeAny_wf hwf a n, within_iff.2 ⟨fun p hp => hcells p (mem_dropAt hp).1, fun p hp => ?_⟩,
    drawnBelow_iff.2 fun p hp => ?_⟩
  · obtain rfl | hp := mem_putAt hp
    · exact ha
    · exact hfree p hp
  · obtain rfl | hp := mem_putAt hp
    · exact hn
    · exact drawnBelow_iff.1 hdrawn p hp

theorem Memory.sound_writeBytes (h : m.Sound bound d) {a : Nat} {bs : List Byte} (ha : a + bs.length ≤ bound) :
    (m.writeBytes a bs).Sound bound d := by
  induction bs generalizing m a with
  | nil => exact h
  | cons b bs ih =>
    rw [List.length_cons] at ha
    exact ih (sound_writeByte h (by omega) b) (by omega)

theorem Memory.sound_memWrite (h : m.Sound bound d) {a n : Nat} (ha : a + n ≤ bound) (v : U64) :
    (m.memWrite a n v).Sound bound d :=
  sound_writeBytes h (by rwa [length_leBytes])

/-- A run of open bytes is sound once its draws are counted. -/
theorem Memory.sound_writeAnys (h : m.Sound bound d) {a n k : Nat} (ha : a + n ≤ bound) (hk : k + n ≤ d) :
    (m.writeAnys a n k).Sound bound d := by
  induction n generalizing m a k with
  | zero => exact h
  | succ n ih => exact ih (sound_writeAny h (by omega) (by omega)) (by omega) (by omega)

theorem Memory.sound_encStore (h : m.Sound bound d) {dest : Nat} (ha : dest + 9 ≤ bound) (v : U64) :
    (encStore m v dest).Sound bound d := by
  unfold encStore
  split_ifs
  · exact sound_memWrite h (by omega) _
  · exact sound_memWrite (sound_memWrite h (by omega) _) (by omega) _

end

/-! ## The updates of the state -/

theorem State.inv_iff (s : State) : s.inv = true ↔
    s.mem.Sound (2 ^ s.cfg.aw) s.draws ∧ resultLegal s.cfg s.result = true ∧
      s.reader.begin_ ≤ 2 ^ s.cfg.aw ∧ s.reader.end_ < 2 ^ s.cfg.aw := by
  simp [State.inv, Memory.Sound, Reader.legal, and_assoc]

@[simp] theorem State.inv_withPort (s : State) (p : List Nat) : (s.withPort p).inv = s.inv := rfl

@[simp] theorem State.inv_stopWalk (s : State) : s.stopWalk.inv = s.inv := rfl

/-! ## The windows of admitted operations (00_scope.md R7) -/

variable {s : State}

theorem State.EncAdmitted.le_bound {dest : Nat} (ha : s.EncAdmitted dest) : dest + 9 ≤ 2 ^ s.cfg.aw := by
  obtain ⟨⟨hlast, -⟩, -⟩ := ha (dest + 8) (by omega) (by omega)
  omega

theorem State.DecfAdmitted.le_bound {src : Nat} (ha : s.DecfAdmitted src) : src + 9 ≤ 2 ^ s.cfg.aw := by
  obtain ⟨⟨hlast, -⟩, -⟩ := ha (src + 8) (by omega) (by omega)
  omega

/-! ## The result fields (10_state.md R27) -/

/-- A failure is one the machine reports, with a `new_begin` of `AW` bits (42_decoder_safe.md R157). -/
theorem resultLegal_failure (p : Config.Params) {cause : Status} (hc : cause = .eTruncated ∨ cause = .eNoncanonical)
    (v : U64) (n : Nat) :
    resultLegal p (some (.decs (reportCause p.errDetail cause) v (n % 2 ^ p.aw))) = true := by
  have hn : n % 2 ^ p.aw < 2 ^ p.aw := Nat.mod_lt _ (Nat.two_pow_pos _)
  obtain rfl | rfl := hc <;> cases hd : p.errDetail <;> simp [reportCause, resultLegal, hd, hn]

theorem resultLegal_enc (p : Config.Params) (v : U64) : resultLegal p (some (.enc (encLen v))) = true := by
  simpa [resultLegal, lenLegal] using encLen_bounds v

theorem resultLegal_decf (p : Config.Params) {v : U64} {len : Nat} (h1 : 1 ≤ len) (h9 : len ≤ 9)
    (hv : len ≤ 8 → v.toNat < 2 ^ (7 * len)) : resultLegal p (some (.decf v len)) = true := by
  simp only [resultLegal, lenLegal, Bool.and_eq_true, Bool.or_eq_true, decide_eq_true_eq]
  refine ⟨⟨h1, h9⟩, ?_⟩
  by_cases h : len = 9
  · exact .inl h
  · exact .inr (hv (by omega))

/-- A short form's value fits its `7 * (k + 1)` payload bits (41_decoder_fast.md R137). -/
theorem shortValue_lt (m : Memory) (a : Nat) {k : Nat} (hk : k ≤ 7) :
    (shortValue m a k).toNat < 2 ^ (7 * (k + 1)) := by
  rw [shortValue_toNat m a hk, Nat.div_lt_iff_lt_mul (Nat.two_pow_pos _), ← pow_add]
  exact (leInt_readBytes_lt m a (k + 1)).trans_le (Nat.pow_le_pow_right (by omega) (by omega))

theorem resultLegal_decfDatapath (p : Config.Params) (m : Memory) (src : Nat) :
    resultLegal p (some (.decf (decfValue m src) (decfLen m src))) = true := by
  have hk := lsb8_le (m.readByte src)
  unfold decfValue decfLen
  split_ifs
  · exact resultLegal_decf p (by omega) le_rfl (by omega)
  · exact resultLegal_decf p (by omega) (by omega) fun _ => shortValue_lt m src hk

theorem resultLegal_chunk (p : Config.Params) {i : Instr} (hc : isChunk i = true) :
    resultLegal p (some (.decf (chunkValue i) (chunkLength i))) = true := by
  obtain ⟨h1, h9⟩ := chunkLength_bounds hc
  refine resultLegal_decf p h1 h9 fun h8 => ?_
  have hL : chunkLength i = chunkLength i - 1 + 1 := by omega
  obtain ⟨-, hlt⟩ := encodeChunk_short hc (by omega) hL
  rwa [← hL] at hlt

/-! ## Every update an operation makes keeps the invariant -/

section
variable (h : s.inv = true)
include h

theorem State.inv_withResult {r : Option Result} (hr : resultLegal s.cfg r = true) : (s.withResult r).inv = true := by
  obtain ⟨hmem, -, hreader⟩ := s.inv_iff.1 h
  exact (State.inv_iff _).2 ⟨hmem, hr, hreader⟩

theorem State.inv_moveCursor {a : Nat} (ha : a ≤ 2 ^ s.cfg.aw) : (s.moveCursor a).inv = true := by
  obtain ⟨hmem, hresult, -, hend⟩ := s.inv_iff.1 h
  exact (State.inv_iff _).2 ⟨hmem, hresult, ha, hend⟩

theorem State.inv_withMem {m : Memory} (hm : m.Sound (2 ^ s.cfg.aw) s.draws) : (s.withMem m).inv = true := by
  obtain ⟨-, hrest⟩ := s.inv_iff.1 h
  exact (State.inv_iff _).2 ⟨hm, hrest⟩

theorem State.inv_skipDraws (n : Nat) : (s.skipDraws n).inv = true := by
  obtain ⟨hmem, hrest⟩ := s.inv_iff.1 h
  exact (State.inv_iff _).2 ⟨Memory.sound_mono hmem (Nat.le_add_right _ _), hrest⟩

theorem State.inv_spoil {a n : Nat} (ha : a + n ≤ 2 ^ s.cfg.aw) : (s.spoil a n).inv = true := by
  obtain ⟨hmem, hrest⟩ := (State.inv_iff _).1 (State.inv_skipDraws h n)
  exact (State.inv_iff _).2 ⟨Memory.sound_writeAnys hmem ha le_rfl, hrest⟩

theorem inv_resetDone : (resetDone s).inv = true := State.inv_withResult h rfl

theorem inv_failDecs {cause : Status} (hc : cause = .eTruncated ∨ cause = .eNoncanonical) :
    (failDecs s cause).inv = true :=
  State.inv_skipDraws (State.inv_withResult h (resultLegal_failure s.cfg hc _ _)) 2

theorem inv_succeedDecs (v : U64) {a : Nat} (ha : a < 2 ^ s.cfg.aw) : (succeedDecs s v a).inv = true :=
  State.inv_withResult h (decide_eq_true ha)

/-! ## Every operation keeps the invariant -/

theorem inv_encAfter {dest : Nat} (ha : s.EncAdmitted dest) (v : U64) : (encAfter s v dest).inv = true := by
  have hlen := encLen_bounds v
  have hstored := State.inv_withMem h (Memory.sound_encStore (s.inv_iff.1 h).1 ha.le_bound v)
  have hreported := State.inv_withResult hstored (resultLegal_enc s.cfg v)
  unfold encAfter encTail
  split
  · have hbound : dest + encLen v + (9 - encLen v) ≤ 2 ^ s.cfg.aw := by
      have := ha.le_bound
      omega
    exact State.inv_spoil hreported hbound
  · exact hreported

/-- `new_begin` does not pass the end of the window (42_decoder_safe.md R160). -/
theorem inv_decsBody {b avail : Nat} (ha : b + avail < 2 ^ s.cfg.aw) : (decsBody s b avail).inv = true := by
  obtain hend | ⟨-, -, -, hend⟩ | ⟨hlen, -, -, hend⟩ | ⟨hlen, -, hend⟩ := decsBody_cases s b avail <;> rw [hend]
  · exact inv_failDecs h (.inl rfl)
  · exact inv_failDecs h (.inr rfl)
  · exact inv_succeedDecs h _ (by omega)
  · rw [decsShort, if_neg (by omega)]
    exact inv_succeedDecs h _ (by omega)

theorem inv_safeRead (ha : s.DecsAdmitted s.reader.begin_ s.reader.end_) (L : Nat) (V : U64) :
    (safeRead L V s).inv = true := by
  obtain ⟨hle, hlt, -⟩ := ha
  unfold safeRead
  split_ifs with hcut hcanon
  · exact inv_failDecs (s.inv_stopWalk.trans h) (.inl rfl)
  · exact inv_failDecs (s.inv_stopWalk.trans h) (.inr rfl)
  · have hcursor : s.reader.begin_ + L < 2 ^ s.cfg.aw := by omega
    exact State.inv_moveCursor (inv_succeedDecs h V hcursor) hcursor.le

/-- The window of `DECF` holds every chunk, so the cursor passes at most the last address (log 17). -/
theorem inv_fastRead (ha : s.DecfAdmitted s.reader.begin_) {i : Instr} (hc : isChunk i = true) :
    (fastRead (chunkLength i) (chunkValue i) s).inv = true := by
  have hcursor : s.reader.begin_ + chunkLength i ≤ 2 ^ s.cfg.aw := by
    have hbound := ha.le_bound
    have hlen := chunkLength_bounds hc
    omega
  exact State.inv_moveCursor (State.inv_withResult h (resultLegal_chunk s.cfg hc)) hcursor

theorem inv_exec {i : Instr} {t : State} (he : exec i s = .next t) : t.inv = true := by
  obtain ⟨v, dest, -, ha, rfl⟩ | ⟨src, -, -, -, rfl⟩ | ⟨b, e, -, ⟨hle, hlt, -⟩, rfl⟩ | ⟨hc, hread⟩ := exec_next he
  · exact inv_encAfter h ha v
  · exact State.inv_withResult h (resultLegal_decfDatapath s.cfg s.mem src)
  · exact inv_decsBody h (by omega)
  · obtain ⟨-, ha, rfl⟩ | ⟨-, ha, -, rfl⟩ := readChunk_next hread
    · exact inv_safeRead h ha _ _
    · exact inv_fastRead h ha hc

/-- An `ENC` that a reset cuts off was admitted, so its nine open bytes are addresses (70_reset_and_hazards.md
R221). -/
theorem inv_cutEffect {i : Instr} {t : State} (he : exec i s = .next t) : (cutEffect i s).inv = true := by
  cases i with
  | enc v dest => exact State.inv_spoil h (execEnc_next he).1.le_bound
  | _ => exact h

/-! ## Every step keeps the invariant -/

theorem inv_fetch {i : Instr} {u : State} (hf : fetch s = .run i u) : u.inv = true := by
  obtain ⟨w, ws, -, -, rfl⟩ | ⟨-, -, -, rfl⟩ := fetch_run hf
  · exact (s.inv_withPort ws).trans h
  · exact h

theorem inv_stepRun {t : State} (hs : stepRun s = .next t) : t.inv = true := by
  obtain ⟨-, rfl⟩ | ⟨i, u, hf, he⟩ | ⟨-, rfl⟩ := stepRun_next hs
  · exact h
  · exact inv_exec (inv_fetch h hf) he
  · exact inv_failDecs (s.inv_stopWalk.trans h) (.inl rfl)

theorem inv_stepReset {t : State} (hs : stepReset s = .next t) : t.inv = true := by
  obtain ⟨-, rfl⟩ | ⟨i, u, v, hf, he, rfl⟩ := stepReset_next hs
  · exact inv_resetDone h
  · exact inv_resetDone (inv_cutEffect (inv_fetch h hf) he)

theorem inv_step {t : State} (hs : step s = .next t) : t.inv = true := by
  obtain ⟨-, hr⟩ | ⟨-, hr⟩ := step_next hs
  · exact inv_stepReset h hr
  · exact inv_stepRun h hr

end

/-- Settles O52: every next state is reached by updates that each keep the invariant, given that an admitted window
lies in the address space. -/
theorem stepKeepsTheInvariant : Obligations.StepKeepsTheInvariant := fun _ _ h hs => inv_step h hs

/-- Settles O51: after reset no memory is listed, no result is there, and the cursor and the end of the window are 0. -/
theorem resetHasTheInvariant : Obligations.ResetHasTheInvariant :=
  State.reset.inv_iff.2 ⟨⟨Memory.empty_wf, rfl, rfl⟩, rfl, Nat.zero_le _, Nat.two_pow_pos _⟩

end Sys2Proof.Machine
end

section
/-! PROOFS. After a reset no result field carries a value. -/

namespace Sys2Proof.Machine

/-- A step in which a reset arrives ends in `resetDone`, be there an operation to cut off or none. -/
theorem stepReset_next_resetDone {s t : State} (h : stepReset s = .next t) : ∃ u, t = resetDone u := by
  obtain ⟨-, rfl⟩ | ⟨i, u, -, -, -, rfl⟩ := stepReset_next h
  · exact ⟨s, rfl⟩
  · exact ⟨cutEffect i u, rfl⟩

theorem fetch_idle {s : State} (hport : s.port = []) (hwalk : s.reader.walking = false) : fetch s = .idle := by
  simp [fetch, hport, walkGoesOn, hwalk]

theorem step_of_resetPending {s : State} (h : s.resetPending = true) : step s = stepReset s := if_pos h

/-- Settles O59: whatever the reset finds, the step ends in `resetDone`; with nothing to do it is `resetDone` of the
state itself. -/
theorem resetLeavesNoResult : Obligations.ResetLeavesNoResult := by
  refine ⟨rfl, fun s hs => ?_⟩
  rw [step_of_resetPending hs]
  refine ⟨fun t ht => ?_, fun hport hwalk => ?_⟩
  · obtain ⟨u, rfl⟩ := stepReset_next_resetDone ht
    exact ⟨rfl, rfl⟩
  · rw [stepReset, fetch_idle hport hwalk]
    rfl

end Sys2Proof.Machine
end

section
/-! PROOFS. `MemRead` and `MemWrite`, byte by byte (20_memory.md R42 to R44). -/

namespace Sys2Proof.Machine

theorem getElem_leBytes (n w i : Nat) (h : i < (leBytes n w).length) :
    (leBytes n w)[i] = BitVec.ofNat 8 (w / 256 ^ i) := by
  induction n generalizing w i with
  | zero => simp at h
  | succ n ih =>
    cases i with
    | zero => simp [leBytes]
    | succ i =>
      simp only [leBytes, List.getElem_cons_succ]
      rw [ih, Nat.div_div_eq_div_mul, pow_succ']

section
variable {m m' : Memory} {a n : Nat}

theorem readByte_memWrite_inside (m : Memory) (a : Nat) (v : U64) {n j : Nat} (h : j < n) :
    (m.memWrite a n v).readByte (a + j) = v.extractLsb' (8 * j) 8 := by
  rw [Memory.memWrite, readByte_writeBytes_inside _ _ _ _ (by simpa using h), getElem_leBytes, pow256_eq]
  apply BitVec.eq_of_toNat_eq
  simp [Nat.shiftRight_eq_div_pow]

theorem readByte_memWrite_outside (m : Memory) (v : U64) {a n x : Nat} (h : x < a ∨ a + n ≤ x) :
    (m.memWrite a n v).readByte x = m.readByte x :=
  readByte_writeBytes_outside _ _ _ (by simpa using h)

/-- A byte after a `MemWrite` depends on the same byte before it at most, and not on that where it was stored. -/
theorem readByte_memWrite_congr (v : U64) {x : Nat} (h : m.readByte x = m'.readByte x ∨ a ≤ x ∧ x < a + n) :
    (m.memWrite a n v).readByte x = (m'.memWrite a n v).readByte x := by
  by_cases hx : a ≤ x ∧ x < a + n
  · obtain ⟨j, rfl⟩ := Nat.exists_eq_add_of_le hx.1
    rw [readByte_memWrite_inside m a v (by omega), readByte_memWrite_inside m' a v (by omega)]
  · rw [readByte_memWrite_outside m v (by omega), readByte_memWrite_outside m' v (by omega)]
    exact h.resolve_right hx

theorem memRead_memWrite (m : Memory) (a : Nat) {n : Nat} {v : U64} (h : v.toNat < 2 ^ (8 * n)) :
    (m.memWrite a n v).memRead a n = v := by
  have hbytes : (m.memWrite a n v).readBytes a n = leBytes n v.toNat := by
    simpa [Memory.memWrite] using readBytes_writeBytes m a (leBytes n v.toNat)
  rw [Memory.memRead, hbytes, leInt_leBytes_of_lt (by rwa [pow256_eq]), BitVec.ofNat_toNat, BitVec.setWidth_eq]

theorem memRead_congr (h : m.AgreeOn m' a (a + n)) : m.memRead a n = m'.memRead a n :=
  congrArg (fun bs => BitVec.ofNat 64 (leInt bs)) (readBytes_congr h)

end

/-- Settles O47: byte `j` of the little-endian bytes stored is `v[8j+7:8j]`, and the integer of those bytes is `v`. -/
theorem memWriteThenMemRead : Obligations.MemWriteThenMemRead := fun m a _ v _ hv =>
  ⟨fun _ hj => readByte_memWrite_inside m a v hj, fun _ hx => readByte_memWrite_outside m v hx,
    memRead_memWrite m a hv⟩

/-- Settles O48: both reads begin with the same byte, which is the low byte of either integer. -/
theorem firstByteIsTheLowByte : Obligations.FirstByteIsTheLowByte := by
  intro m a
  have hread1 := readByte_toNat m a 1 (by omega)
  have hread8 := readByte_toNat m a 8 (by omega)
  have hlt := leInt_readBytes_lt m a 1
  apply BitVec.eq_of_toNat_eq
  rw [BitVec.toNat_setWidth, BitVec.extractLsb'_toNat, memRead_toNat m a (by omega), memRead_toNat m a le_rfl,
    Nat.shiftRight_zero]
  omega

end Sys2Proof.Machine
end

section
/-! PROOFS. What `ENC` writes, and that it reads nothing; that nothing else writes (20_memory.md R47, R50). -/

namespace Sys2Proof.Machine

variable {s t : State} {v : U64} {dest x : Nat}

/-! ## The bytes `ENC` leaves -/

theorem readByte_encStore_outside (m : Memory) (v : U64) (h : x < dest ∨ dest + 9 ≤ x) :
    (encStore m v dest).readByte x = m.readByte x := by
  unfold encStore
  split_ifs
  · exact readByte_memWrite_outside m _ (by omega)
  · rw [readByte_memWrite_outside _ _ (by omega), readByte_memWrite_outside m _ (by omega)]

/-- On either path the datapath stores all of `dest .. dest+7` (40_encoder.md R106, R107). -/
theorem readByte_encStore_congr {m m' : Memory} (v : U64)
    (h : m.readByte x = m'.readByte x ∨ dest ≤ x ∧ x < dest + 8) :
    (encStore m v dest).readByte x = (encStore m' v dest).readByte x := by
  unfold encStore
  split_ifs
  · exact readByte_memWrite_congr _ h
  · apply readByte_memWrite_congr
    by_cases hx : dest + 1 ≤ x ∧ x < dest + 1 + 8
    · exact .inr hx
    · exact .inl (readByte_memWrite_congr _ (h.imp_right (by omega)))

/-- A byte `ENC` leaves open is the draw of its place in the tail (40_encoder.md R108; log 7). -/
theorem readByte_encAfter_open (h : LeftOpen s.cfg (.enc v dest) x) :
    (encAfter s v dest).mem.readByte x = Config.anyByte (s.draws + (x - (dest + encLen v))) := by
  obtain ⟨htail, hlo, hhi⟩ := h
  rw [length_encBytes] at hlo
  obtain ⟨n, rfl⟩ := Nat.exists_eq_add_of_le hlo
  simp only [encAfter, encTail, State.withResult_cfg, State.withMem_cfg, htail, State.spoil_mem,
    Nat.add_sub_cancel_left]
  exact readByte_writeAnys_inside _ _ _ _ _ (by omega)

theorem not_leftOpen_outside (p : Config.Params) (v : U64) (h : x < dest ∨ dest + 9 ≤ x) :
    ¬ LeftOpen p (.enc v dest) x := by
  rintro ⟨-, hlo, hhi⟩
  omega

theorem encAfter_agreeOutside (s : State) (v : U64) (dest : Nat) :
    (encAfter s v dest).mem.AgreeOutside s.mem dest (dest + 9) := fun _ hx =>
  (readByte_encAfter (not_leftOpen_outside s.cfg v hx)).trans (readByte_encStore_outside s.mem v hx)

/-- Over another memory each byte `ENC` leaves is the same: an open one has the same draw, a stored one the same
value, and one that is neither was the same before. -/
theorem readByte_encAfter_withMem {m : Memory}
    (h : s.mem.readByte x = m.readByte x ∨ dest ≤ x ∧ x < dest + 8) :
    (encAfter s v dest).mem.readByte x = (encAfter (s.withMem m) v dest).mem.readByte x := by
  by_cases hopen : LeftOpen s.cfg (.enc v dest) x
  · have hopen' : LeftOpen (s.withMem m).cfg (.enc v dest) x := hopen
    rw [readByte_encAfter_open hopen, readByte_encAfter_open hopen', State.withMem_draws]
  · have hopen' : ¬ LeftOpen (s.withMem m).cfg (.enc v dest) x := hopen
    rw [readByte_encAfter hopen, readByte_encAfter hopen']
    exact readByte_encStore_congr v h

theorem encAfter_frame (s : State) (v : U64) (dest : Nat) : encAfter s v dest = { s with
    mem := (encAfter s v dest).mem, result := (encAfter s v dest).result, draws := (encAfter s v dest).draws } := by
  unfold encAfter encTail
  split <;> rfl

/-! ## The statements -/

/-- Settles O17: the stores and the open tail of `ENC` lie in `dest .. dest+8`, and it updates no other field than
memory, result and draw counter. -/
theorem encFrame : Obligations.EncFrame := by
  intro s t v dest h
  obtain ⟨-, rfl⟩ := execEnc_next h
  exact ⟨encAfter_frame s v dest, encAfter_agreeOutside s v dest⟩

/-- Settles O50: `ENC` is admitted whatever memory holds, its length is one of the value alone, and every byte of
`dest .. dest+7` is stored or a draw of the same number. -/
theorem encReadsNoMemory : Obligations.EncReadsNoMemory := by
  intro s t m v dest h
  obtain ⟨hadm, rfl⟩ := execEnc_next h
  have hadm' : (s.withMem m).EncAdmitted dest := hadm
  refine ⟨encAfter (s.withMem m) v dest, execEnc_of_admitted hadm' v, ?_, fun x hlo hhi => ?_⟩
  · rw [encAfter_result, encAfter_result]
  · exact readByte_encAfter_withMem (.inr ⟨hlo, hhi⟩)

theorem safeRead_mem (s : State) (L : Nat) (V : U64) : (safeRead L V s).mem = s.mem := by
  unfold safeRead
  split_ifs <;> rfl

theorem readChunk_mem {L : Nat} {V : U64} (h : readChunk L V s = .next t) : t.mem = s.mem := by
  obtain ⟨-, -, rfl⟩ | ⟨-, -, -, rfl⟩ := readChunk_next h
  · exact safeRead_mem s L V
  · rfl

/-- Settles O49: the decoders, and the chunk forms that read with them, deliver result fields and move the cursor. -/
theorem decodersWriteNoMemory : Obligations.DecodersWriteNoMemory := by
  intro i s t hi h
  obtain ⟨v, dest, rfl, -, -⟩ | ⟨src, -, -, -, rfl⟩ | ⟨b, e, -, -, rfl⟩ | ⟨-, hread⟩ := exec_next h
  · exact Bool.noConfusion hi
  · rfl
  · exact decsBody_mem s b _
  · exact readChunk_mem hread

end Sys2Proof.Machine
end

section
/-! PROOFS. An operation reads and writes in its window alone, so operations that do not conflict commute
(20_memory.md R47 to R50, R57 b). -/

namespace Sys2Proof.Machine

/-! ## What the decoders read -/

section
variable {m m' : Memory} {a : Nat}

theorem Memory.AgreeOn.mono {e a' e' : Nat} (h : m.AgreeOn m' a e) (ha : a ≤ a') (he : e' ≤ e) :
    m.AgreeOn m' a' e' := fun x hlo hhi => h x (ha.trans hlo) (hhi.trans_le he)

theorem Memory.AgreeOn.symm {e : Nat} (h : m.AgreeOn m' a e) : m'.AgreeOn m a e := fun x hlo hhi => (h x hlo hhi).symm

/-- What `DECF` computes of memory, it computes of its nine bytes (20_memory.md R48). -/
theorem decf_congr (h : m.AgreeOn m' a (a + 9)) :
    decfValue m a = decfValue m' a ∧ decfLen m a = decfLen m' a ∧ validChunkAt m a = validChunkAt m' a := by
  have hfirst : m.readByte a = m'.readByte a := h a le_rfl (by omega)
  have hload : m.memRead a 8 = m'.memRead a 8 := memRead_congr (h.mono le_rfl (by omega))
  have hlong : m.memRead (a + 1) 8 = m'.memRead (a + 1) 8 := memRead_congr (h.mono (by omega) (by omega))
  unfold decfValue decfLen validChunkAt shortValue
  rw [hfirst, hload, hlong]
  exact ⟨rfl, rfl, rfl⟩

variable {s : State} {avail : Nat}

theorem decsLong_withMem (h : s.mem.AgreeOn m a (a + avail)) :
    decsLong (s.withMem m) a avail = (decsLong s a avail).withMem m := by
  unfold decsLong
  by_cases hcut : avail < 9
  · rw [if_pos hcut, if_pos hcut]
    rfl
  · have hlong : s.mem.memRead (a + 1) 8 = m.memRead (a + 1) 8 := memRead_congr (h.mono (by omega) (by omega))
    rw [if_neg hcut, if_neg hcut, State.withMem_mem, hlong]
    split_ifs <;> rfl

theorem decsShort_withMem (h : s.mem.AgreeOn m a (a + avail)) (L : Nat) :
    decsShort (s.withMem m) a avail L = (decsShort s a avail L).withMem m := by
  unfold decsShort
  by_cases hcut : avail < L
  · rw [if_pos hcut, if_pos hcut]
    rfl
  · have hcopy : s.mem.memRead a L = m.memRead a L := memRead_congr (h.mono le_rfl (by omega))
    rw [if_neg hcut, if_neg hcut, State.withMem_mem, hcopy]
    rfl

/-- `DECS` does the same over any memory with the same bytes in its window, be that shorter than the chunk
(20_memory.md R49; 42_decoder_safe.md R156). -/
theorem decsBody_withMem (h : s.mem.AgreeOn m a (a + avail)) :
    decsBody (s.withMem m) a avail = (decsBody s a avail).withMem m := by
  unfold decsBody
  by_cases hempty : avail = 0
  · rw [if_pos hempty, if_pos hempty]
    rfl
  · have hfirst : s.mem.readByte a = m.readByte a := h a le_rfl (by omega)
    rw [if_neg hempty, if_neg hempty, State.withMem_mem, hfirst, decsLong_withMem h, decsShort_withMem h]
    split_ifs <;> rfl

end

/-! ## Every operation is local to its window -/

variable {i j : Instr} {s t : State}

/-- The operation may write this byte: it is an `ENC`, and the byte is one of its window (20_memory.md R47, R50). -/
def MayWrite (i : Instr) (x : Nat) : Prop := isEnc i = true ∧ (opWindow i).1 ≤ x ∧ x < (opWindow i).2

/-- A byte an operation may not write stays as it was. -/
theorem exec_readByte (h : exec i s = .next t) {x : Nat} (hx : ¬ MayWrite i x) :
    t.mem.readByte x = s.mem.readByte x := by
  cases hi : isEnc i with
  | false => rw [decodersWriteNoMemory i s t hi h]
  | true =>
    cases i with
    | enc v dest =>
      have hout : x < dest ∨ dest + 9 ≤ x := by
        simp only [MayWrite, hi, true_and, opWindow] at hx
        omega
      exact (encFrame s t v dest h).2 x hout
    | _ => exact Bool.noConfusion hi

/-- An operation completes with the same result over any memory that holds the bytes it reads, and leaves the same
byte wherever it found the same. -/
theorem exec_withMem {m : Memory} (hi : isChunk i = false) (hexec : exec i s = .next t)
    (hm : isEnc i = false → s.mem.AgreeOn m (opWindow i).1 (opWindow i).2) :
    ∃ t', exec i (s.withMem m) = .next t' ∧ t'.result = t.result ∧
      ∀ x, s.mem.readByte x = m.readByte x → t.mem.readByte x = t'.mem.readByte x := by
  obtain ⟨v, dest, rfl, hadm, rfl⟩ | ⟨src, rfl, hadm, hvalid, rfl⟩ | ⟨b, e, rfl, hadm, rfl⟩ | ⟨hc, -⟩ :=
    exec_next hexec
  · have hadm' : (s.withMem m).EncAdmitted dest := hadm
    refine ⟨encAfter (s.withMem m) v dest, execEnc_of_admitted hadm' v, ?_, fun x hx => ?_⟩
    · rw [encAfter_result, encAfter_result]
    · exact readByte_encAfter_withMem (.inl hx)
  · obtain ⟨hvalue, hlen, hchunk⟩ := decf_congr (a := src) (hm rfl)
    have hadm' : (s.withMem m).DecfAdmitted src := hadm
    have hvalid' : decfContract (s.withMem m) (validChunkAt m src) = none := hchunk ▸ hvalid
    refine ⟨_, execDecf_of_admitted hadm' hvalid', ?_, fun x hx => hx⟩
    rw [State.withResult_result, State.withResult_result, State.withMem_mem, hvalue, hlen]
  · have hadm' : (s.withMem m).DecsAdmitted b e := hadm
    have hend : b + (e - b) = e := Nat.add_sub_cancel' hadm.1
    have hbody := decsBody_withMem (hend.symm ▸ hm rfl)
    refine ⟨(decsBody s b (e - b)).withMem m, hbody ▸ execDecs_of_admitted hadm', rfl, fun x hx => ?_⟩
    rw [decsBody_mem, State.withMem_mem, hx]
  · exact absurd (hi.symm.trans hc) Bool.false_ne_true

theorem State.sameForCodec_withMem (h : t.launch = s.launch) : (s.withMem t.mem).SameForCodec t := by
  simp only [State.launch, Prod.mk.injEq] at h
  obtain ⟨hcfg, hreadable, hwritable, hdevices, hbusy⟩ := h
  exact ⟨hcfg, rfl, hreadable, hwritable, hdevices, hbusy⟩

/-- Two states with one launch and the bytes an operation reads: where it completes in one it does in the other, with
one meaning, and leaves the same byte wherever it found the same and does not leave it open. -/
theorem exec_local {s' : State} (hi : isChunk i = false) (hlaunch : t.launch = s.launch)
    (hexec : exec i s = .next s') (hm : isEnc i = false → s.mem.AgreeOn t.mem (opWindow i).1 (opWindow i).2) :
    ∃ t', exec i t = .next t' ∧ meaningOf t'.result = meaningOf s'.result ∧
      ∀ x, ¬ LeftOpen s.cfg i x → s.mem.readByte x = t.mem.readByte x → s'.mem.readByte x = t'.mem.readByte x := by
  obtain ⟨u, hu, hresult, hbytes⟩ := exec_withMem hi hexec hm
  obtain ⟨t', ht', hmeaning, hclosed⟩ :=
    operationsForgetThePast i (s.withMem t.mem) t u hi (State.sameForCodec_withMem hlaunch) hu
  exact ⟨t', ht', hmeaning.trans (congrArg meaningOf hresult),
    fun x hopen hx => (hbytes x hx).trans (hclosed x hopen).symm⟩

/-! ## Operations that do not conflict -/

theorem Conflict.symm (h : Conflict i j) : Conflict j i := by
  obtain ⟨henc, x, hi, hj⟩ := h
  exact ⟨henc.symm, x, hj, hi⟩

/-- An operation does not write the window of one it does not conflict with. -/
theorem exec_agreeOn_window (hij : ¬ Conflict i j) (h : exec i s = .next t) :
    s.mem.AgreeOn t.mem (opWindow j).1 (opWindow j).2 := fun x hlo hhi =>
  (exec_readByte h fun ⟨henc, hx⟩ => hij ⟨.inl henc, x, hx, hlo, hhi⟩).symm

/-- No byte may be written by both. -/
theorem not_mayWrite_of_not_conflict (hij : ¬ Conflict i j) (x : Nat) : ¬ MayWrite i x ∨ ¬ MayWrite j x :=
  not_and_or.1 fun ⟨⟨henc, hi⟩, _, hj⟩ => hij ⟨.inl henc, x, hi, hj⟩

/-- Settles O55: neither operation changes what the other reads, so each completes with one meaning in either order;
and of two that do not conflict at most one may write a given byte, so the other leaves it. -/
theorem nonConflictingOperationsCommute : Obligations.NonConflictingOperationsCommute := by
  intro i j s si sij hi hj hij hexi hexij
  have hlaunch : si.launch = s.launch := exec_keeps_launch hexi
  obtain ⟨sj, hexj, hmeanj, hbytej⟩ :=
    exec_local hj hlaunch.symm hexij fun _ => (exec_agreeOn_window hij hexi).symm
  obtain ⟨sji, hexji, hmeani, hbytei⟩ :=
    exec_local hi (exec_keeps_launch hexj) hexi fun _ => exec_agreeOn_window (mt Conflict.symm hij) hexj
  refine ⟨sj, sji, hexj, hexji, hmeani.symm, hmeanj, fun x hopeni hopenj => ?_⟩
  have hcfg : si.cfg = s.cfg := congrArg Prod.fst hlaunch
  obtain hx | hx := not_mayWrite_of_not_conflict hij x
  · calc sij.mem.readByte x = sj.mem.readByte x := hbytej x (hcfg ▸ hopenj) (exec_readByte hexi hx)
      _ = sji.mem.readByte x := (exec_readByte hexji hx).symm
  · calc sij.mem.readByte x = si.mem.readByte x := exec_readByte hexij hx
      _ = sji.mem.readByte x := hbytei x hopeni (exec_readByte hexj hx).symm

end Sys2Proof.Machine
end

section
/-! PROOFS. The first-byte map, and the chunks written out (30_encoding.md R72, R74, R82). -/

namespace Sys2Proof.Machine

/-- The map gives the length by the lowest set bit (30_encoding.md R72). -/
theorem declaredLength_eq (b : Byte) : declaredLength b = if b = 0x00 then 9 else lsb8 b + 1 := by
  revert b
  decide

/-- Each byte is taken by one row (30_encoding.md R72). -/
theorem formRows_takes_one (b : Byte) : (formRows.filter (fun r => r.takes b)).length = 1 := by
  revert b
  decide

/-- Settles O2: the rows are compared with each of the 256 bytes. -/
theorem firstByteMapIsTotalAndDisjoint : Obligations.FirstByteMapIsTotalAndDisjoint :=
  ⟨fun b => ⟨formRows_takes_one b, declaredLength_eq b⟩, rfl⟩

/-- Settles O1: each word is decoded. -/
theorem writtenOutWordsDecode : Obligations.WrittenOutWordsDecode :=
  ⟨rfl, rfl, rfl, rfl, rfl, rfl, rfl, rfl⟩

end Sys2Proof.Machine
end

section
/-! PROOFS. Chunks and the bytes they are written in: decoding and encoding are inverse (30_encoding.md R73, R75, R79,
R85). -/

namespace Sys2Proof.Machine

/-! ## The form of a length and an integer -/

theorem isChunk_chunkOf (L w : Nat) : isChunk (chunkOf L w) = true := by
  unfold chunkOf
  split <;> rfl

theorem chunkLength_chunkOf {L : Nat} (h1 : 1 ≤ L) (h9 : L ≤ 9) (w : Nat) : chunkLength (chunkOf L w) = L := by
  interval_cases L <;> rfl

/-- The value stands above the `k` zero bits and the marker bit (30_encoding.md R86). -/
theorem chunkValue_chunkOf_short {k : Nat} (hk : k ≤ 7) (w : Nat) :
    (chunkValue (chunkOf (k + 1) w)).toNat = w / 2 ^ (k + 1) % 2 ^ (7 * (k + 1)) := by
  interval_cases k <;> simp [chunkOf, chunkValue] <;> omega

/-! ## The first byte of a chunk -/

/-- A chunk form is a short one with a parameter `k` of at most 7, or the long one (30_encoding.md R73, R75). -/
theorem chunk_cases {i : Instr} (hc : isChunk i = true) :
    (∃ k, k ≤ 7 ∧ chunkLength i = k + 1) ∨ ∃ v, i = .l9 v := by
  obtain ⟨h1, h9⟩ := chunkLength_bounds hc
  by_cases hL : chunkLength i = 9
  · exact .inr (eq_l9 hL)
  · exact .inl ⟨chunkLength i - 1, by omega, by omega⟩

theorem declaredLength_bounds (b : Byte) : 1 ≤ declaredLength b ∧ declaredLength b ≤ 9 := by
  have hk := lsb8_le b
  rw [declaredLength_eq]
  split_ifs <;> omega

/-- The low bits of an integer are those of its first byte. -/
theorem leInt_cons_mod (b : Byte) (bs : List Byte) {n : Nat} (h : n ≤ 8) :
    leInt (b :: bs) % 2 ^ n = b.toNat % 2 ^ n := by
  have h256 : 256 = 2 ^ n * 2 ^ (8 - n) := by
    rw [← pow_add, Nat.add_sub_cancel' h]
    rfl
  rw [leInt, h256, Nat.mul_assoc, Nat.add_mul_mod_self_left]

/-- A chunk's first byte declares the chunk's length (30_encoding.md R72). -/
theorem declaredLength_encodeChunk {i : Instr} (hc : isChunk i = true) {b : Byte} {bs : List Byte}
    (h : encodeChunk i = b :: bs) : declaredLength b = chunkLength i := by
  rw [declaredLength_eq]
  obtain ⟨k, hk, hL⟩ | ⟨v, rfl⟩ := chunk_cases hc
  · have hmark : b.toNat % 2 ^ (k + 1) = 2 ^ k := by
      rw [← leInt_cons_mod b bs (by omega), ← h, leInt_short hc hk hL, marker_mod]
    obtain ⟨hlsb, hne⟩ := lsb8_of_marker b k hk hmark
    rw [if_neg hne, hlsb, hL]
  · obtain ⟨rfl, -⟩ := List.cons.inj h
    rfl

/-! ## Encode, then decode -/

/-- The integer of a chunk's bytes gives the chunk back. -/
theorem chunkOf_leInt_encodeChunk {i : Instr} (hc : isChunk i = true) :
    chunkOf (chunkLength i) (leInt (encodeChunk i)) = i := by
  cases i with
  | enc _ _ | decf _ | decs _ _ => exact Bool.noConfusion hc
  | s1 v | s2 v | s3 v | s4 v | s5 v | s6 v | s7 v | s8 v =>
    have hv := leInt_short hc (by decide) rfl
    simp only [chunkLength, chunkOf]
    rw [hv, marker_div, BitVec.ofNat_toNat, chunkValue, BitVec.setWidth_setWidth_of_le _ (by decide),
      BitVec.setWidth_eq]
  | l9 v =>
    have hv : leInt (encodeChunk (.l9 v)) = 256 * v.toNat := by
      simp only [encodeChunk, leInt, leInt_leBytes_of_lt (n := 8) v.isLt]
      simp
    simp [chunkLength, chunkOf, hv]

/-- A stream decodes to the form its first byte declares and what follows it (30_encoding.md R85). -/
theorem decodeChunk_cons {b : Byte} {rest : List Byte} (h : declaredLength b ≤ rest.length + 1) :
    decodeChunk (b :: rest) = .ok (chunkOf (declaredLength b) (leInt ((b :: rest).take (declaredLength b))),
      (b :: rest).drop (declaredLength b)) :=
  if_neg (by simpa using h)

/-- Settles O3: the first byte of the chunk declares its length, so the bytes taken are those of the chunk, and their
integer gives its payload. -/
theorem chunkReadsBackFromStream : Obligations.ChunkReadsBackFromStream := by
  intro i rest hc
  have hlen := length_encodeChunk i
  have hpos := (chunkLength_bounds hc).1
  obtain ⟨b, bs, hb⟩ := List.exists_cons_of_length_pos (l := encodeChunk i) (by omega)
  have hL : declaredLength b = (encodeChunk i).length := (declaredLength_encodeChunk hc hb).trans hlen.symm
  have hfit : declaredLength b ≤ (bs ++ rest).length + 1 := by simp [hL, hb]
  have hstream : b :: (bs ++ rest) = encodeChunk i ++ rest := by rw [hb, List.cons_append]
  have hdec := decodeChunk_cons hfit
  rwa [hstream, hL, List.take_left, List.drop_left, hlen, chunkOf_leInt_encodeChunk hc] at hdec

/-! ## Decode, then encode -/

/-- An integer with the marker at bit `k` is the one of the value above it (30_encoding.md R73). -/
theorem marker_above {w k : Nat} (h : w % 2 ^ (k + 1) = 2 ^ k) : (2 * (w / 2 ^ (k + 1)) + 1) * 2 ^ k = w := by
  calc (2 * (w / 2 ^ (k + 1)) + 1) * 2 ^ k = 2 ^ (k + 1) * (w / 2 ^ (k + 1)) + 2 ^ k := by ring
    _ = 2 ^ (k + 1) * (w / 2 ^ (k + 1)) + w % 2 ^ (k + 1) := by rw [h]
    _ = w := Nat.div_add_mod _ _

/-- Any bytes with the marker at bit `k` are the short form of the value above it (30_encoding.md R73, R79). -/
theorem encodeChunk_chunkOf_short {k : Nat} {bs : List Byte} (hk : k ≤ 7) (hlen : bs.length = k + 1)
    (hmark : leInt bs % 2 ^ (k + 1) = 2 ^ k) : encodeChunk (chunkOf (k + 1) (leInt bs)) = bs := by
  have hL : chunkLength (chunkOf (k + 1) (leInt bs)) = k + 1 := chunkLength_chunkOf (by omega) (by omega) _
  have hvalue : leInt bs / 2 ^ (k + 1) < 2 ^ (7 * (k + 1)) := by
    rw [Nat.div_lt_iff_lt_mul (Nat.two_pow_pos _), ← pow_add]
    calc leInt bs < 256 ^ bs.length := leInt_lt bs
      _ = 2 ^ (7 * (k + 1) + (k + 1)) := by rw [hlen, pow256_eq]; congr 1; omega
  rw [(encodeChunk_short (isChunk_chunkOf _ _) hk hL).1, chunkValue_chunkOf_short hk, Nat.mod_eq_of_lt hvalue,
    shortChunk, marker_above hmark, ← hlen, leBytes_leInt]

/-- A zero byte and any eight bytes are the long form of their integer (30_encoding.md R75, R79). -/
theorem encodeChunk_chunkOf_long {bs : List Byte} (hlen : bs.length = 8) :
    encodeChunk (chunkOf 9 (leInt (0x00 :: bs))) = 0x00 :: bs := by
  have hvalue : leInt (0x00 :: bs) / 2 ^ 8 = leInt bs := Nat.div_eq_of_eq_mul_right (by omega) (Nat.zero_add _)
  have hlt : leInt bs < 2 ^ 64 := by simpa [hlen] using leInt_lt bs
  have hbytes : leBytes 8 (leInt bs) = bs := hlen ▸ leBytes_leInt bs
  simp only [chunkOf, encodeChunk, hvalue, BitVec.toNat_ofNat, Nat.mod_eq_of_lt hlt, hbytes]

/-- The form decoded from as many bytes as the first declares is written in those bytes (30_encoding.md R79). -/
theorem encodeChunk_chunkOf {b : Byte} {bs : List Byte} (h : declaredLength b = bs.length + 1) :
    encodeChunk (chunkOf (bs.length + 1) (leInt (b :: bs))) = b :: bs := by
  rw [declaredLength_eq] at h
  split_ifs at h with hb
  · rw [← h, hb]
    exact encodeChunk_chunkOf_long (by omega)
  · have hk : lsb8 b = bs.length := by omega
    have hk7 : bs.length ≤ 7 := hk ▸ lsb8_le b
    refine encodeChunk_chunkOf_short hk7 rfl ?_
    rw [leInt_cons_mod b bs (by omega), ← hk, lsb8_spec b hb]

theorem encodeChunk_chunkOf_take {b : Byte} {rest : List Byte} (h : declaredLength b ≤ rest.length + 1) :
    encodeChunk (chunkOf (declaredLength b) (leInt ((b :: rest).take (declaredLength b)))) =
      (b :: rest).take (declaredLength b) := by
  obtain ⟨n, hn⟩ : ∃ n, declaredLength b = n + 1 := ⟨_, (Nat.sub_add_cancel (declaredLength_bounds b).1).symm⟩
  have hlen : (rest.take n).length = n := List.length_take_of_le (by omega)
  have henc := encodeChunk_chunkOf (bs := rest.take n) (by rw [hlen, hn])
  rwa [hlen, ← List.take_succ_cons, ← hn] at henc

/-- Settles O5: the bytes taken are as many as the first byte declares, and are those of the form they decode to. -/
theorem everyByteSequenceIsOneChunk : Obligations.EveryByteSequenceIsOneChunk := by
  intro b rest h
  obtain ⟨h1, h9⟩ := declaredLength_bounds b
  refine ⟨_, _, decodeChunk_cons h, isChunk_chunkOf _ _, chunkLength_chunkOf h1 h9 _, ?_⟩
  rw [encodeChunk_chunkOf_take h, List.take_append_drop]

/-! ## The layout of a short form -/

/-- Settles O6: the integer is `2v + 1` above `k` zero bits, and the marker is the lowest bit of `2v + 1`. -/
theorem shortFormLayout : Obligations.ShortFormLayout := by
  intro i k hc hk hL
  rw [leInt_short hc hk hL]
  refine ⟨(length_encodeChunk i).trans hL, (encodeChunk_short hc hk hL).2, by ring, fun j hj => ?_, ?_, fun j _ => ?_⟩
  · simp [Nat.testBit_mul_two_pow, hj]
  · simp [Nat.testBit_mul_two_pow]
  · have hidx : j + k + 1 - k = j + 1 := by omega
    have hhalf : (2 * (chunkValue i).toNat + 1) / 2 = (chunkValue i).toNat := by omega
    have hle : k ≤ j + k + 1 := by omega
    rw [Nat.testBit_mul_two_pow, hidx, Nat.testBit_succ, hhalf, decide_eq_true hle, Bool.true_and, BitVec.getLsbD]

end Sys2Proof.Machine
end

section
/-! PROOFS. Decode of encode is the identity, on command words (30_encoding.md R82, R83) and on chunks. -/

namespace Sys2Proof.Machine

/-! ## Command words -/

/-- The select code stands below the operand fields (log 2). -/
theorem commandWord_fields {op : Nat} (h : op < 4) (f : Nat) : (op + 4 * f) % 4 = op ∧ (op + 4 * f) / 4 = f := by
  omega

theorem decodeCommand_enc (aw f : Nat) :
    decodeCommand aw (0 + 4 * f) = .ok (.enc (BitVec.ofNat 64 f) (f / 2 ^ 64 % 2 ^ aw)) := by
  obtain ⟨hop, hf⟩ := commandWord_fields (op := 0) (by omega) f
  simp only [decodeCommand, hop, hf]

theorem decodeCommand_decf (aw f : Nat) : decodeCommand aw (1 + 4 * f) = .ok (.decf (f % 2 ^ aw)) := by
  obtain ⟨hop, hf⟩ := commandWord_fields (op := 1) (by omega) f
  simp only [decodeCommand, hop, hf]

theorem decodeCommand_decs (aw f : Nat) :
    decodeCommand aw (2 + 4 * f) = .ok (.decs (f % 2 ^ aw) (f / 2 ^ aw % 2 ^ aw)) := by
  obtain ⟨hop, hf⟩ := commandWord_fields (op := 2) (by omega) f
  simp only [decodeCommand, hop, hf]

theorem decodeCommand_reserved {aw w : Nat} (h : w % 4 = 3) : decodeCommand aw w = .error .opReserved := by
  simp only [decodeCommand, h]

theorem encode_chunk {i : Instr} (hc : isChunk i = true) (aw : Nat) : encode aw i = .chunk (encodeChunk i) := by
  cases i with
  | enc _ _ | decf _ | decs _ _ => exact Bool.noConfusion hc
  | _ => rfl

theorem decode_encode_chunk {i : Instr} (hc : isChunk i = true) (aw : Nat) : decode aw (encode aw i) = .ok i := by
  have hdec := chunkReadsBackFromStream i [] hc
  rw [List.append_nil] at hdec
  rw [encode_chunk hc, decode, hdec]
  rfl

/-- Two fields laid side by side come apart again (30_encoding.md R83). -/
theorem sideBySide_fields {n x : Nat} (h : x < n) (y : Nat) : (x + n * y) % n = x ∧ (x + n * y) / n = y := by
  rw [Nat.add_mul_mod_self_left, Nat.add_mul_div_left _ _ (by omega), Nat.div_eq_of_lt h, Nat.zero_add]
  exact ⟨Nat.mod_eq_of_lt h, rfl⟩

/-- Settles O4: each operand field of a command word is cut out at the place it was put, and a chunk form reads back
from the stream of its own bytes. -/
theorem decodeInvertsEncode : Obligations.DecodeInvertsEncode := by
  intro aw i hwf
  cases i with
  | enc v dest =>
    simp only [wellFormed, decide_eq_true_eq] at hwf
    obtain ⟨hlow, hhigh⟩ := sideBySide_fields v.isLt dest
    have hvalue : BitVec.ofNat 64 (v.toNat + 2 ^ 64 * dest) = v := BitVec.eq_of_toNat_eq hlow
    simp only [encode, decode, decodeCommand_enc, hvalue, hhigh, Nat.mod_eq_of_lt hwf]
  | decf src =>
    simp only [wellFormed, decide_eq_true_eq] at hwf
    simp only [encode, decode, decodeCommand_decf, Nat.mod_eq_of_lt hwf]
  | decs b e =>
    simp only [wellFormed, Bool.and_eq_true, decide_eq_true_eq] at hwf
    obtain ⟨hb, he⟩ := hwf
    obtain ⟨hlow, hhigh⟩ := sideBySide_fields hb e
    simp only [encode, decode, decodeCommand_decs, hlow, hhigh, Nat.mod_eq_of_lt he]
  | _ => exact decode_encode_chunk rfl aw

end Sys2Proof.Machine
end

section
/-! PROOFS. The chunk forms, read in a walk (30_encoding.md R78, R86; 45_stream.md R172, R176, R177). -/

namespace Sys2Proof.Machine

variable {s : State} {L : Nat} {V : U64}

/-- A chunk the window holds is delivered, unless it is a long form that is not canonical (42_decoder_safe.md R161). -/
theorem safeRead_delivers (hfit : L ≤ s.reader.end_ - s.reader.begin_) (hV : L = 9 → canonical L V = true) :
    safeRead L V s = (succeedDecs s V (s.reader.begin_ + L)).moveCursor (s.reader.begin_ + L) := by
  have hno : ¬ (L = 9 ∧ canonical L V = false) := fun ⟨hL, hcanon⟩ => by simp [hV hL] at hcanon
  rw [safeRead, if_neg (by omega), if_neg hno]

/-- A long form that is not canonical fails, though the window holds it (42_decoder_safe.md R154). -/
theorem safeRead_noncanonical (hfit : 9 ≤ s.reader.end_ - s.reader.begin_) (hV : canonical 9 V = false) :
    safeRead 9 V s = failDecs s.stopWalk .eNoncanonical := by
  rw [safeRead, if_neg (by omega), if_pos ⟨rfl, hV⟩]

/-- A long form is canonical from `2^56` upward (30_encoding.md R76, R77). -/
theorem canonical_long_iff (V : U64) : canonical 9 V = true ↔ 2 ^ 56 ≤ V.toNat := by
  simp [canonical, classMin]

theorem failsWith_failDecs (s : State) (cause : Status) : FailsWith s cause (.next (failDecs s cause)) :=
  ⟨_, _, rfl⟩

/-- Settles O36: a short form is never checked for being canonical, so one the window holds is delivered. -/
theorem safeWalkReadsAShortForm : Obligations.SafeWalkReadsAShortForm := by
  intro s i hc hshort hdec hadm hfit
  rw [exec_chunk i hc, readChunk_safe _ _ hdec hadm, safeRead_delivers hfit (by omega)]
  rfl

/-- Settles O37: of a long form the window holds, the value alone decides between delivery and failure. -/
theorem safeWalkReadsALongForm : Obligations.SafeWalkReadsALongForm := by
  intro s v hdec hadm hfit
  have hread : exec (.l9 v) s = .next (safeRead 9 v s) := readChunk_safe 9 v hdec hadm
  rw [hread]
  refine ⟨fun hv => ?_, fun hv => ?_⟩
  · rw [safeRead_delivers hfit fun _ => (canonical_long_iff v).2 hv]
    rfl
  · have hcanon : canonical 9 v = false := by
      rw [← Bool.not_eq_true, canonical_long_iff]
      omega
    rw [safeRead_noncanonical hfit hcanon]
    exact failsWith_failDecs s.stopWalk .eNoncanonical

/-- Settles O38: the contract of `DECF` on the chunk decides whether it is delivered or refused. -/
theorem fastWalkReadsAChunk : Obligations.FastWalkReadsAChunk := by
  intro s i hc hdec hadm
  rw [exec_chunk i hc, readChunk_fast _ _ hdec hadm]
  refine ⟨fun hok => ?_, fun hcanon hrefuse => ?_⟩
  · rw [(decfContract_none_iff s _).2 hok, guarded_none]
    rfl
  · have hcontract : decfContract s false = some .decfChunk := by rw [decfContract, hrefuse]; rfl
    rw [hcanon, hcontract, guarded_some]

end Sys2Proof.Machine
end

section
/-! PROOFS. The step takes the oldest command word of the port (30_encoding.md R82). -/

namespace Sys2Proof.Machine

variable {s : State} {w : Nat} {ws : List Nat}

theorem fetch_command {i : Instr} (hport : s.port = w :: ws) (hdec : decodeCommand s.cfg.aw w = .ok i) :
    fetch s = .run i (s.withPort ws) := by
  simp only [fetch, hport, hdec]

theorem fetch_reserved (hport : s.port = w :: ws) (hop : w % 4 = 3) : fetch s = .refuse .opReserved := by
  simp only [fetch, hport, decodeCommand_reserved hop]

theorem step_of_not_resetPending (h : s.resetPending = false) : step s = stepRun s := if_neg (by simp [h])

/-- Settles O8: the fetch looks at the port before it looks at the walk, and the run takes the word off the port. -/
theorem stepRunsThePortCommand : Obligations.StepRunsThePortCommand := by
  intro s w ws i hreset hport hdec
  rw [step_of_not_resetPending hreset, stepRun, fetch_command hport hdec]
  rfl

/-- Settles O11: the fetch refuses the word, and a step refuses what the fetch does, be a reset pending or not. -/
theorem reservedSelectCodeIsRefused : Obligations.ReservedSelectCodeIsRefused := by
  intro s w ws hport hop
  have hfetch := fetch_reserved hport hop
  cases hreset : s.resetPending with
  | true => rw [step_of_resetPending hreset, stepReset, hfetch]
  | false => rw [step_of_not_resetPending hreset, stepRun, hfetch]

end Sys2Proof.Machine
end

section
/-! PROOFS. The pseudo-operations (30_encoding.md R84; 45_stream.md R173). -/

namespace Sys2Proof.Machine

theorem thenConvert_next (f : Result → Option Nat) {o : Host.Outcome State Fault Refusal} {t : State} {r : Result}
    (ho : o = .next t) (hr : t.result = some r) : thenConvert f o = .next (t, f r) := by
  rw [ho, thenConvert, hr, Option.bind_some]

/-- Only a success is converted to a byte count (45_stream.md R173). -/
theorem byteCount_failure {c : Status} (hc : c ≠ .ok) (start : Nat) (v : U64) (a : Nat) :
    byteCount start (.decs c v a) = none := by
  cases c with
  | ok => exact absurd rfl hc
  | eTruncated | eNoncanonical | eFolded => rfl

/-- A failure is never reported as a success (60_exceptions.md R191). -/
theorem failDecs_result_ne_ok (s : State) {cause : Status} (hcause : cause ≠ .ok) (v : U64) (a : Nat) :
    (failDecs s cause).result ≠ some (.decs .ok v a) := by
  cases hd : s.cfg.errDetail <;> simp [failDecs, reportCause, hd, hcause]

/-- A success takes a byte or more (42_decoder_safe.md R162). -/
theorem begin_lt_newBegin {s : State} {b avail newBegin : Nat} {v : U64}
    (h : (decsBody s b avail).result = some (.decs .ok v newBegin)) : b < newBegin := by
  obtain hend | ⟨-, -, -, hend⟩ | ⟨-, -, -, hend⟩ | ⟨hlen, -, hend⟩ := decsBody_cases s b avail <;> rw [hend] at h
  · exact absurd h (failDecs_result_ne_ok s (by decide) v newBegin)
  · exact absurd h (failDecs_result_ne_ok s (by decide) v newBegin)
  · simp only [succeedDecs, State.withResult_result, Option.some.injEq, Result.decs.injEq] at h
    omega
  · rw [decsShort, if_neg (by omega)] at h
    simp only [succeedDecs, State.withResult_result, Option.some.injEq, Result.decs.injEq] at h
    omega

/-- Settles O46: each conversion is one addition to the length, or one subtraction from the advanced cursor, which a
success leaves past `begin`. -/
theorem pseudoOperationsConvert : Obligations.PseudoOperationsConvert := by
  refine ⟨fun s t v dest len h hr => thenConvert_next (endPtr dest) h hr,
    fun s t v src len h hr => thenConvert_next (endPtr src) h hr,
    fun s t v b e newBegin h hr => ⟨thenConvert_next (byteCount b) h hr, ?_⟩,
    fun s t c v b e newBegin h hr hc => ?_⟩
  · obtain ⟨-, rfl⟩ := execDecs_next h
    exact begin_lt_newBegin hr
  · rw [execDecsN, thenConvert_next (byteCount b) h hr, byteCount_failure hc]

end Sys2Proof.Machine
end

section
/-! PROOFS. Canonical chunks are distinct, and none begins another (40_encoder.md R114 b). -/

namespace Sys2Proof.Machine

theorem decodeChunk_encBytes_append (v : U64) (rest : List Byte) :
    decodeChunk (encBytes v ++ rest) = .ok (formFor v, rest) :=
  chunkReadsBackFromStream (formFor v) rest (isChunk_formFor v)

theorem formFor_injective {v w : U64} (h : formFor v = formFor w) : v = w := by
  rw [← chunkValue_formFor v, h, chunkValue_formFor]

/-- Settles O7: the longer chunk, read as a stream, begins with the form of `v` and with the form of `w`. -/
theorem noChunkBeginsAnother : Obligations.NoChunkBeginsAnother := by
  rintro v w ⟨rest, hw⟩
  have hreadv := decodeChunk_encBytes_append v rest
  have hreadw := decodeChunk_encBytes_append w []
  rw [hw] at hreadv
  rw [List.append_nil, hreadv] at hreadw
  injection hreadw with hpair
  exact formFor_injective (congrArg Prod.fst hpair)

end Sys2Proof.Machine
end

section
/-! PROOFS. The bit-count path and the bit-shift path of `ENC` (40_encoder.md R104, R105). -/

namespace Sys2Proof.Machine

/-! ## The bit-count path -/

/-- Setting bit 0 does not move a value across a power of two other than `2^0`. -/
theorem or_one_toNat_lt_iff (v : U64) {n : Nat} (h : 1 ≤ n) : (v ||| 1).toNat < 2 ^ n ↔ v.toNat < 2 ^ n := by
  obtain ⟨n, rfl⟩ : ∃ n', n = n' + 1 := ⟨n - 1, by omega⟩
  rw [or_one_toNat, pow_succ]
  omega

/-- The scan of `v or 1` compares `v` with powers of two (40_encoder.md R104). -/
theorem msb64_or_one_lt_iff (v : U64) {n : Nat} (h : 1 ≤ n) : msb64 (v ||| 1) < n ↔ v.toNat < 2 ^ n := by
  have hne : (v ||| 1).toNat ≠ 0 := by
    rw [or_one_toNat]
    omega
  rw [msb64_eq_log2, Nat.log2_lt hne, or_one_toNat_lt_iff v h]

/-- No smaller parameter has room for the value (40_encoder.md R104). -/
theorem two_pow_le_of_lt_extraBytes {v : U64} {j : Nat} (h : j < extraBytes v) : 2 ^ (7 * (j + 1)) ≤ v.toNat := by
  have hmin := (extraBytes_class v).1
  rw [classMin, if_neg (by omega), Nat.add_sub_cancel] at hmin
  exact (Nat.pow_le_pow_right (by omega) (by omega)).trans hmin

/-- Settles O13: `extraBytes` is the class of the value, and each comparison of the scan with a multiple of 7 is one of
the value with a power of two. -/
theorem extraBytesIsLeast : Obligations.ExtraBytesIsLeast := by
  intro v hv
  refine ⟨rfl, extraBytes_le hv, (extraBytes_class v).2, fun _ => two_pow_le_of_lt_extraBytes,
    fun k => ⟨?_, fun hk => ?_⟩⟩
  · rw [← msb64_or_one_lt_iff v (by omega)]
    omega
  · rw [← Nat.not_lt, ← Nat.not_lt, msb64_or_one_lt_iff v (by omega)]

/-! ## The bit-shift path -/

/-- Doubling and setting bit 0 loses no bit of a value below `2^63`. -/
theorem doubled_or_one_toNat {v : U64} (h : v.toNat < 2 ^ 63) : (shl64 v 1 ||| 1).toNat = 2 * v.toNat + 1 := by
  rw [or_one_toNat, shl64_toNat]
  omega

/-- A value of at most `7(k+1)` bits fits a chunk of `k + 1` bytes (30_encoding.md R73). -/
theorem marker_lt {k v : Nat} (h : v < 2 ^ (7 * (k + 1))) : (2 * v + 1) * 2 ^ k < 2 ^ (8 * (k + 1)) := by
  have hlt := leInt_lt (shortChunk k v)
  rwa [leInt_shortChunk h, shortChunk, length_leBytes, pow256_eq] at hlt

/-- The working word is an exact integer product (40_encoder.md R105). -/
theorem encWord_toNat {v : U64} (h : v.toNat < Config.longMin) :
    (encWord v).toNat = (2 * v.toNat + 1) * 2 ^ extraBytes v := by
  have hk := extraBytes_le h
  have h63 : v.toNat < 2 ^ 63 := h.trans (by decide)
  rw [encWord, shl64_toNat, doubled_or_one_toNat h63]
  refine Nat.mod_eq_of_lt ((marker_lt (extraBytes_class v).2).trans_le ?_)
  exact Nat.pow_le_pow_right (by omega) (by omega)

theorem encWord_lt {v : U64} (h : v.toNat < Config.longMin) : (encWord v).toNat < 2 ^ (8 * (extraBytes v + 1)) :=
  encWord_toNat h ▸ marker_lt (extraBytes_class v).2

/-- The low `k + 1` bits of an integer with the marker at bit `k`. -/
theorem testBit_marker_low (v : Nat) {k j : Nat} (h : j ≤ k) :
    ((2 * v + 1) * 2 ^ k).testBit j = decide (k = j) := by
  have hmod := Nat.testBit_mod_two_pow ((2 * v + 1) * 2 ^ k) (k + 1) j
  rw [marker_mod, Nat.testBit_two_pow, decide_eq_true (by omega : j < k + 1), Bool.true_and] at hmod
  exact hmod.symm

/-- The bits above the marker are those of the value. -/
theorem testBit_marker_high (v k j : Nat) : ((2 * v + 1) * 2 ^ k).testBit (j + k + 1) = v.testBit j := by
  have hdiv := Nat.testBit_div_two_pow (n := k + 1) ((2 * v + 1) * 2 ^ k) j
  rw [marker_div] at hdiv
  exact hdiv.symm

/-- Settles O14: the working word is the integer with the marker at bit `k` and the value above it. -/
theorem workingWordIsExact : Obligations.WorkingWordIsExact := by
  intro v hv
  have hW := encWord_toNat hv
  refine ⟨hW, encWord_lt hv, fun j hj => ?_, ?_, fun j _ => ?_⟩
  · rw [BitVec.getLsbD, hW, testBit_marker_low _ hj.le, decide_eq_false (by omega)]
  · rw [BitVec.getLsbD, hW, testBit_marker_low _ le_rfl, decide_eq_true rfl]
  · rw [BitVec.getLsbD, hW, testBit_marker_high, BitVec.getLsbD]

end Sys2Proof.Machine
end

section
/-! PROOFS. `ENC` writes the canonical chunk of the class table (40_encoder.md R106, R107, R110, R114 d). -/

namespace Sys2Proof.Machine

/-! ## The two paths, and the canonical chunk each writes -/

section
variable {v : U64}

theorem encLen_short (h : v.toNat < Config.longMin) : encLen v = extraBytes v + 1 := if_pos h

theorem encLen_long (h : Config.longMin ≤ v.toNat) : encLen v = 9 := if_neg (Nat.not_lt.2 h)

/-- A length of at most 8 is one of the short path (40_encoder.md R102). -/
theorem lt_longMin_of_encLen_le (h : encLen v ≤ 8) : v.toNat < Config.longMin := by
  by_contra hlong
  have := encLen_long (Nat.not_lt.1 hlong)
  omega

theorem encStore_short (m : Memory) (h : v.toNat < Config.longMin) (dest : Nat) :
    encStore m v dest = m.memWrite dest 8 (encWord v) := if_pos h

theorem encStore_long (m : Memory) (h : Config.longMin ≤ v.toNat) (dest : Nat) :
    encStore m v dest = (m.memWrite dest 1 0x00).memWrite (dest + 1) 8 v := if_neg (Nat.not_lt.2 h)

theorem formFor_long (h : Config.longMin ≤ v.toNat) : formFor v = .l9 v := by
  obtain ⟨w, hw⟩ := eq_l9 ((chunkLength_formFor v).trans (encLen_long h))
  have hvalue := chunkValue_formFor v
  rw [hw] at hvalue
  rw [hw, ← hvalue]
  rfl

theorem encBytes_long (h : Config.longMin ≤ v.toNat) : encBytes v = [0x00] ++ leBytes 8 v.toNat := by
  rw [encBytes, formFor_long h]
  rfl

/-- The canonical chunk of a short form is the low bytes of the working word (40_encoder.md R105, R106). -/
theorem encBytes_short (h : v.toNat < Config.longMin) :
    encBytes v = leBytes (extraBytes v + 1) (encWord v).toNat := by
  have hL := (chunkLength_formFor v).trans (encLen_short h)
  rw [encBytes, (encodeChunk_short (isChunk_formFor v) (extraBytes_le h) hL).1, chunkValue_formFor, shortChunk,
    encWord_toNat h]

end

/-! ## The stored bytes are the canonical chunk -/

theorem memWrite_holds (m : Memory) (a : Nat) (v : U64) {k n : Nat} (h : k ≤ n) :
    (m.memWrite a n v).Holds a (leBytes k v.toNat) := by
  intro j hj
  have hjk : j < k := by simpa using hj
  rw [Memory.memWrite, readByte_writeBytes_inside _ _ _ _ (by rw [length_leBytes]; omega), getElem_leBytes,
    getElem_leBytes]

theorem encStore_holds (m : Memory) (v : U64) (dest : Nat) : (encStore m v dest).Holds dest (encBytes v) := by
  by_cases h : v.toNat < Config.longMin
  · rw [encStore_short m h, encBytes_short h]
    exact memWrite_holds m dest _ (Nat.succ_le_succ (extraBytes_le h))
  · have hlong := Nat.not_lt.1 h
    rw [encStore_long m hlong, encBytes_long hlong]
    have hsentinel : (m.memWrite dest 1 0x00).Holds dest [0x00] := memWrite_holds m dest 0x00 le_rfl
    refine holds_append.2 ⟨holds_congr (fun x _ hx => ?_) hsentinel, memWrite_holds _ (dest + 1) v le_rfl⟩
    exact (readByte_memWrite_outside _ v (.inl hx)).symm

/-- No byte of the chunk is left open (40_encoder.md R108). -/
theorem readByte_encAfter_chunk (s : State) {v : U64} {dest x : Nat} (h : x < dest + encLen v) :
    (encAfter s v dest).mem.readByte x = (encStore s.mem v dest).readByte x := by
  refine readByte_encAfter ?_
  rintro ⟨-, hlo, -⟩
  rw [length_encBytes] at hlo
  omega

theorem encAfter_holds (s : State) (v : U64) (dest : Nat) : (encAfter s v dest).mem.Holds dest (encBytes v) := by
  intro n hn
  have hchunk : dest + n < dest + encLen v := Nat.add_lt_add_left (length_encBytes v ▸ hn) dest
  exact (readByte_encAfter_chunk s hchunk).trans (encStore_holds s.mem v dest n hn)

theorem encAfter_holdsChunk (s : State) (v : U64) (dest : Nat) :
    (encAfter s v dest).mem.HoldsChunk dest (formFor v) := ⟨isChunk_formFor v, encAfter_holds s v dest⟩

/-! ## The statements -/

/-- Settles O15: on either path the datapath stores the bytes of the class table's chunk, and the tail lies past
them. -/
theorem encWritesTheCanonicalChunk : Obligations.EncWritesTheCanonicalChunk := by
  intro s v dest hadm
  obtain ⟨h1, h9⟩ := encLen_bounds v
  rw [length_encBytes]
  exact ⟨_, execEnc_of_admitted hadm v, encAfter_result s v dest, h1, h9, encAfter_holds s v dest⟩

/-- Settles O22: the chunk at `dest` is a short form, whose marker stands in the first byte, or the long form, which
begins with the sentinel. -/
theorem encFirstByteIsZeroExactlyForLongForm : Obligations.EncFirstByteIsZeroExactlyForLongForm := by
  intro s t v dest h
  obtain ⟨-, rfl⟩ := execEnc_next h
  have hchunk := encAfter_holdsChunk s v dest
  by_cases hv : v.toNat < Config.longMin
  · have hL := (chunkLength_formFor v).trans (encLen_short hv)
    exact iff_of_false (firstByte_short hchunk (extraBytes_le hv) hL).2 (Nat.not_le.2 hv)
  · rw [formFor_long (Nat.not_lt.1 hv)] at hchunk
    exact iff_of_true (firstByte_long hchunk) (Nat.not_lt.1 hv)

/-- Settles O16: nine bytes leave no tail, so each byte is the one the long path stores. -/
theorem encLongForm : Obligations.EncLongForm := by
  intro s v dest hadm hv
  have hlen : encLen v = 9 := encLen_long hv
  have hexec := execEnc_of_admitted hadm v
  refine ⟨_, hexec, hlen ▸ encAfter_result s v dest,
    (encFirstByteIsZeroExactlyForLongForm s _ v dest hexec).2 hv, fun n hn => ?_⟩
  rw [readByte_encAfter_chunk s (by omega), encStore_long s.mem hv, readByte_memWrite_inside _ _ _ hn]

end Sys2Proof.Machine
end

section
/-! PROOFS. The tail of `ENC` (40_encoder.md R108, R109). -/

namespace Sys2Proof.Machine

/-- Settles O18: a tail byte is the draw of its place in the tail, and the counter passes the whole tail. -/
theorem encTailIsOpenUnderTheContract : Obligations.EncTailIsOpenUnderTheContract := by
  intro s t v dest n htail h hlo hhi
  obtain ⟨-, rfl⟩ := execEnc_next h
  have hopen : LeftOpen s.cfg (.enc v dest) (dest + n) := ⟨htail, by omega, by omega⟩
  rw [length_encBytes]
  constructor
  · rw [readByte_encAfter_open hopen, Nat.add_sub_add_left]
  · simp [encAfter, encTail, htail]

theorem encAfter_reference {s : State} (h : s.cfg.tail = .reference) (v : U64) (dest : Nat) :
    encAfter s v dest = (s.withMem (encStore s.mem v dest)).withResult (some (.enc (encLen v))) := by
  simp [encAfter, encTail, h]

/-- The bytes of the working word past the chunk are zero (40_encoder.md R105). -/
theorem encWord_byte_past_chunk {v : U64} (h : v.toNat < Config.longMin) {n : Nat} (hn : extraBytes v + 1 ≤ n) :
    (encWord v).extractLsb' (8 * n) 8 = 0x00 := by
  have hlt : (encWord v).toNat < 2 ^ (8 * n) :=
    (encWord_lt h).trans_le (Nat.pow_le_pow_right (by omega) (by omega))
  apply BitVec.eq_of_toNat_eq
  simp [Nat.shiftRight_eq_div_pow, Nat.div_eq_of_lt hlt]

theorem readByte_encStore_past_chunk (m : Memory) (v : U64) (dest : Nat) {n : Nat} (hlo : encLen v ≤ n)
    (hhi : n < 8) : (encStore m v dest).readByte (dest + n) = 0x00 := by
  have hshort : v.toNat < Config.longMin := lt_longMin_of_encLen_le (by omega)
  rw [encStore_short m hshort, readByte_memWrite_inside _ _ _ hhi]
  exact encWord_byte_past_chunk hshort (encLen_short hshort ▸ hlo)

/-- The one store of the short path does not reach `dest+8` (40_encoder.md R106). -/
theorem readByte_encStore_last (m : Memory) {v : U64} (dest : Nat) (h : encLen v ≤ 8) :
    (encStore m v dest).readByte (dest + 8) = m.readByte (dest + 8) := by
  rw [encStore_short m (lt_longMin_of_encLen_le h)]
  exact readByte_memWrite_outside m _ (.inr le_rfl)

/-- Settles O19: the reference datapath leaves memory as it stored it, and draws nothing. -/
theorem encTailOfTheReferenceDatapath : Obligations.EncTailOfTheReferenceDatapath := by
  intro s t v dest htail h
  obtain ⟨-, rfl⟩ := execEnc_next h
  rw [encAfter_reference htail, length_encBytes]
  exact ⟨fun n => readByte_encStore_past_chunk s.mem v dest, readByte_encStore_last s.mem dest, rfl⟩

end Sys2Proof.Machine
end

section
/-! PROOFS. The length `ENC` reports follows the length classes (30_encoding.md R76; 40_encoder.md R114 a). -/

namespace Sys2Proof.Machine

/-- The length is the one whose class the value lies in (30_encoding.md R76). -/
theorem encLen_eq_of_class {v : U64} {L : Nat} (h1 : 1 ≤ L) (h9 : L ≤ 9) (hmin : classMin L ≤ v.toNat)
    (hmax : L ≤ 8 → v.toNat < 2 ^ (7 * L)) : encLen v = L :=
  (chunkLength_formFor v).symm.trans (chunkLength_eq_of_class h1 h9 hmin hmax)

theorem encLen_class (v : U64) :
    classMin (encLen v) ≤ v.toNat ∧ (encLen v ≤ 8 → v.toNat < 2 ^ (7 * encLen v)) :=
  chunkLength_formFor v ▸ formFor_class v

/-- A value of a longer class is above all of a shorter one. -/
theorem encLen_mono {v w : U64} (h : v.toNat ≤ w.toNat) : encLen v ≤ encLen w := by
  by_contra hlt
  have hvmin := (encLen_class v).1
  have hv9 := (encLen_bounds v).2
  have hw1 := (encLen_bounds w).1
  have hwmax := (encLen_class w).2 (by omega)
  have hpow : 2 ^ (7 * encLen w) ≤ 2 ^ (7 * (encLen v - 1)) := Nat.pow_le_pow_right (by omega) (by omega)
  rw [classMin, if_neg (by omega)] at hvmin
  omega

/-- Settles O21: the length is the one of the class the value lies in, and the classes rise with the value. -/
theorem encLengthFollowsTheClasses : Obligations.EncLengthFollowsTheClasses := by
  intro s t v dest h
  obtain ⟨-, rfl⟩ := execEnc_next h
  refine ⟨encLen v, encAfter_result s v dest, fun hv => ?_, fun j h1 h7 hmin hmax => ?_, encLen_long,
    fun s' t' w dest' h' hle => ?_⟩
  · exact encLen_eq_of_class le_rfl (by omega) (Nat.zero_le _) fun _ => hv
  · refine encLen_eq_of_class (by omega) (by omega) ?_ fun _ => hmax
    rwa [classMin, if_neg (by omega), Nat.add_sub_cancel]
  · obtain ⟨-, rfl⟩ := execEnc_next h'
    exact ⟨encLen w, encAfter_result s' w dest', encLen_mono hle⟩

end Sys2Proof.Machine
end

section
/-! PROOFS. `ENC` outside its window (40_encoder.md R101). -/

namespace Sys2Proof.Machine

/-- A window that is not granted is refused for that, whatever else stands against it (log 15). -/
theorem admission_not_granted (s : State) (outside : Refusal) (writes : Bool) (a e : Nat) :
    admission s outside false writes a e = some outside := rfl

theorem grants_eq_false {s : State} {rs : List Region} {a e x : Nat} (hlo : a ≤ x) (hhi : x < e)
    (hx : ¬ (x < 2 ^ s.cfg.aw ∧ ∃ r ∈ rs, r.holds x)) : grants s rs a e = false :=
  Bool.eq_false_iff.2 fun h => hx ((grants_iff s rs a e).1 h x hlo hhi)

/-- Settles O20: one byte that is not writable, or no address, is enough for the window not to be granted. -/
theorem encOutsideItsWindowIsRefused : Obligations.EncOutsideItsWindowIsRefused := by
  intro s v dest x hlo hhi hx
  have hgrant : grants s s.writable dest (dest + 9) = false := grants_eq_false hlo hhi hx
  have hadmit : admitEnc s dest = some .encWindow := by rw [admitEnc, hgrant, admission_not_granted]
  rw [exec, execEnc, hadmit, guarded_some]

end Sys2Proof.Machine
end

section
/-! PROOFS. What `DECF` computes is the chunk that memory holds at its address (41_decoder_fast.md R130 to R142). -/

namespace Sys2Proof.Machine

variable {m : Memory} {a : Nat} {i : Instr}

/-! ## The chunk at an address -/

/-- At every address stands one chunk form or another (30_encoding.md R72, R79). -/
theorem exists_holdsChunk (m : Memory) (a : Nat) :
    ∃ i, m.HoldsChunk a i ∧ chunkLength i = declaredLength (m.readByte a) := by
  obtain ⟨h1, h9⟩ := declaredLength_bounds (m.readByte a)
  obtain ⟨n, hn⟩ : ∃ n, declaredLength (m.readByte a) = n + 1 := ⟨_, (Nat.sub_add_cancel h1).symm⟩
  have hbytes : encodeChunk (chunkOf (n + 1) (leInt (m.readBytes a (n + 1)))) = m.readBytes a (n + 1) := by
    have henc := encodeChunk_chunkOf (b := m.readByte a) (bs := m.readBytes (a + 1) n) (by rw [length_readBytes, hn])
    rwa [length_readBytes] at henc
  exact ⟨_, ⟨isChunk_chunkOf _ _, hbytes ▸ holds_readBytes m a (n + 1)⟩,
    hn ▸ chunkLength_chunkOf (by omega) (by omega) _⟩

/-- A chunk form is determined by its length and its value (30_encoding.md R73, R75). -/
theorem chunk_ext {j : Instr} (hi : isChunk i = true) (hj : isChunk j = true) (hL : chunkLength i = chunkLength j)
    (hV : chunkValue i = chunkValue j) : i = j := by
  obtain ⟨k, hk, hk1⟩ | ⟨v, rfl⟩ := chunk_cases hi
  · rw [← chunkOf_leInt_encodeChunk hi, ← chunkOf_leInt_encodeChunk hj, leInt_short hi hk hk1,
      leInt_short hj hk (hL ▸ hk1), hL, hV]
  · obtain ⟨w, rfl⟩ := eq_l9 hL.symm
    exact congrArg Instr.l9 hV

/-! ## Canonical chunks (30_encoding.md R77) -/

/-- The canonical chunks are the forms of the class table (30_encoding.md R76, R77). -/
theorem canonical_iff_eq_formFor (hc : isChunk i = true) :
    canonical (chunkLength i) (chunkValue i) = true ↔ i = formFor (chunkValue i) := by
  rw [canonical, decide_eq_true_eq]
  constructor
  · intro hmin
    obtain ⟨h1, h9⟩ := chunkLength_bounds hc
    have hmax : chunkLength i ≤ 8 → (chunkValue i).toNat < 2 ^ (7 * chunkLength i) := fun h8 => by
      have hL : chunkLength i = chunkLength i - 1 + 1 := by omega
      exact hL ▸ (encodeChunk_short hc (by omega) hL).2
    exact chunk_ext hc (isChunk_formFor _) (chunkLength_eq_of_class h1 h9 hmin hmax).symm (chunkValue_formFor _).symm
  · intro hform
    rw [hform, chunkValue_formFor]
    exact (formFor_class _).1

theorem canonical_formFor (v : U64) : canonical (chunkLength (formFor v)) (chunkValue (formFor v)) = true := by
  rw [canonical_iff_eq_formFor (isChunk_formFor v), chunkValue_formFor]

theorem holdsChunk_formFor {v : U64} : m.HoldsChunk a (formFor v) ↔ m.Holds a (encBytes v) :=
  and_iff_right (isChunk_formFor v)

theorem holdsChunk_congr {m' : Memory} (hm : m.AgreeOn m' a (a + chunkLength i)) (h : m.HoldsChunk a i) :
    m'.HoldsChunk a i := ⟨h.1, holds_congr (length_encodeChunk i ▸ hm) h.2⟩

/-! ## The datapath on the chunk -/

/-- On either path the datapath gives the chunk's value and length, and the check is the one of the length class
(41_decoder_fast.md R132 to R138, R142). -/
theorem decf_of_holdsChunk (h : m.HoldsChunk a i) :
    decfValue m a = chunkValue i ∧ decfLen m a = chunkLength i ∧
      validChunkAt m a = canonical (chunkLength i) (chunkValue i) := by
  unfold decfValue decfLen validChunkAt
  obtain ⟨k, hk, hL⟩ | ⟨v, rfl⟩ := chunk_cases h.1
  · obtain ⟨hlsb, hne⟩ := firstByte_short h hk hL
    have hvalue := shortValue_of_holdsChunk h hk hL
    rw [if_neg hne, if_neg hne, if_neg hne, hlsb, hvalue, hL]
    refine ⟨rfl, rfl, ?_⟩
    cases k <;> simp [canonical, classMin]
  · have hzero := firstByte_long h
    have hvalue := longValue_of_holdsChunk h
    rw [if_pos hzero, if_pos hzero, if_pos hzero, hvalue]
    exact ⟨rfl, rfl, rfl⟩

/-- `DECF` on the chunk at `src`: the contract of R131 (b) decides whether its value and length are delivered. -/
theorem exec_decf_of_holdsChunk {s : State} {src : Nat} (hadm : s.DecfAdmitted src) (h : s.mem.HoldsChunk src i) :
    exec (.decf src) s = guarded (decfContract s (canonical (chunkLength i) (chunkValue i)))
      (.next (s.withResult (some (.decf (chunkValue i) (chunkLength i))))) := by
  obtain ⟨hvalue, hlen, hvalid⟩ := decf_of_holdsChunk h
  rw [exec, execDecf, (admitDecf_none_iff s src).2 hadm, guarded_none, hvalue, hlen, hvalid]

/-! ## The statements -/

/-- Settles O23: the datapath gives the chunk's value and length, and the check of R142 passes on a canonical chunk. -/
theorem decfReturnsTheChunk : Obligations.DecfReturnsTheChunk := by
  intro s src i hadm h hcanon
  rw [exec_decf_of_holdsChunk hadm h, (decfContract_none_iff s _).2 (.inl hcanon), guarded_none]
  rfl

/-- Settles O24: the check of R142 fails on a chunk that is not canonical, and the parameter alone says what becomes of
it. -/
theorem decfOnAChunkThatIsNotCanonical : Obligations.DecfOnAChunkThatIsNotCanonical := by
  intro s src i hadm h hcanon
  rw [exec_decf_of_holdsChunk hadm h]
  refine ⟨fun hrefuse => ?_, fun hdatapath => ?_⟩
  · have hcontract : decfContract s false = some .decfChunk := by rw [decfContract, hrefuse]; rfl
    rw [hcanon, hcontract, guarded_some]
  · rw [(decfContract_none_iff s _).2 (.inr hdatapath), guarded_none]
    rfl

/-- Settles O26: the other memory holds the same chunk at `src`, and the chunk decides all that `DECF` does. -/
theorem decfIgnoresWhatFollowsTheChunk : Obligations.DecfIgnoresWhatFollowsTheChunk := by
  intro s m src hagree t hexec
  obtain ⟨i, hchunk, hL⟩ := exists_holdsChunk s.mem src
  obtain ⟨hadm, -, -⟩ := execDecf_next hexec
  have hadm' : (s.withMem m).DecfAdmitted src := hadm
  have hchunk' : (s.withMem m).mem.HoldsChunk src i := holdsChunk_congr (hL ▸ hagree) hchunk
  rw [exec_decf_of_holdsChunk hadm hchunk] at hexec
  obtain ⟨hcontract, hnext⟩ := guarded_next hexec
  obtain rfl := Host.Outcome.next.inj hnext
  have hcontract' : decfContract (s.withMem m) (canonical (chunkLength i) (chunkValue i)) = none := hcontract
  have hexec' := exec_decf_of_holdsChunk hadm' hchunk'
  rwa [hcontract', guarded_none] at hexec'

/-- Settles O27: some chunk form stands at the address, and it is canonical exactly when it is the form of its
value. -/
theorem validChunkIsTheChunkOfSomeValue : Obligations.ValidChunkIsTheChunkOfSomeValue := by
  intro m a
  constructor
  · intro hvalid
    obtain ⟨i, h, -⟩ := exists_holdsChunk m a
    rw [(decf_of_holdsChunk h).2.2, canonical_iff_eq_formFor h.1] at hvalid
    exact ⟨chunkValue i, holdsChunk_formFor.1 (hvalid ▸ h)⟩
  · rintro ⟨v, h⟩
    rw [(decf_of_holdsChunk (holdsChunk_formFor.2 h)).2.2, canonical_formFor]

/-- Settles O25: one byte that is not readable, or no address, is enough for the window not to be granted. -/
theorem decfOutsideItsWindowIsRefused : Obligations.DecfOutsideItsWindowIsRefused := by
  intro s src x hlo hhi hx
  have hgrant : grants s s.readable src (src + 9) = false := grants_eq_false hlo hhi hx
  have hadmit : admitDecf s src = some .decfWindow := by rw [admitDecf, hgrant, admission_not_granted]
  rw [exec, execDecf, hadmit, guarded_some]

/-! ## The round trip (41_decoder_fast.md R143) -/

/-- On the canonical chunk of a value, `DECF` returns that value and the length `ENC` reports for it. -/
theorem exec_decf_of_encBytes {s : State} {src : Nat} {v : U64} (hadm : s.DecfAdmitted src)
    (h : s.mem.Holds src (encBytes v)) :
    exec (.decf src) s = .next { s with result := some (.decf v (encLen v)) } := by
  have hexec := decfReturnsTheChunk s src (formFor v) hadm (holdsChunk_formFor.2 h) (canonical_formFor v)
  rwa [chunkValue_formFor, chunkLength_formFor] at hexec

/-- Settles O41: `ENC` leaves the canonical chunk of its value, `DECF` returns the value and length of that chunk, and
both `ENC` and the memory `DECF` read hold the same chunk bytes. -/
theorem encThenDecfReturnsTheValue : Obligations.EncThenDecfReturnsTheValue := by
  constructor
  · intro s t u v a len henc hlen hagree hadm
    obtain ⟨-, rfl⟩ := execEnc_next henc
    obtain rfl : encLen v = len := Result.enc.inj (Option.some.inj ((encAfter_result s v a).symm.trans hlen))
    rw [← length_encBytes] at hagree
    exact exec_decf_of_encBytes hadm (holds_congr hagree (encAfter_holds s v a))
  · intro s t u w v x a d len hchunk hdecf hresult henc
    obtain ⟨hadm, -, -⟩ := execDecf_next hdecf
    rw [exec_decf_of_encBytes hadm hchunk] at hdecf
    obtain rfl := Host.Outcome.next.inj hdecf
    obtain ⟨rfl, rfl⟩ : x = v ∧ encLen x = len := Result.decf.inj (Option.some.inj hresult)
    obtain ⟨-, rfl⟩ := execEnc_next henc
    refine ⟨encAfter_result u x d, fun n hn => ?_⟩
    rw [← length_encBytes] at hn
    exact (encAfter_holds u x d n hn).trans (hchunk n hn).symm

end Sys2Proof.Machine
end

section
/-! PROOFS. What `DECS` does is decided by the chunk that memory holds at `begin` and the bytes its window has of it
(42_decoder_safe.md R151 to R162). -/

namespace Sys2Proof.Machine

variable {s : State} {m : Memory} {i : Instr} {b e avail : Nat}

/-! ## The chunk at an address -/

/-- A chunk's first byte in memory declares the chunk's length (30_encoding.md R72). -/
theorem declaredLength_of_holdsChunk (h : m.HoldsChunk b i) : declaredLength (m.readByte b) = chunkLength i := by
  obtain ⟨k, hk, hL⟩ | ⟨v, rfl⟩ := chunk_cases h.1
  · obtain ⟨hlsb, hne⟩ := firstByte_short h hk hL
    rw [declaredLength_eq, if_neg hne, hlsb, hL]
  · rw [firstByte_long h]
    rfl

/-- A zero byte begins a long form (30_encoding.md R75). -/
theorem exists_holdsChunk_long (h : m.readByte b = 0x00) : ∃ v, m.HoldsChunk b (.l9 v) := by
  obtain ⟨i, hchunk, hL⟩ := exists_holdsChunk m b
  obtain ⟨v, rfl⟩ := eq_l9 (h ▸ hL : chunkLength i = declaredLength 0x00)
  exact ⟨v, hchunk⟩

/-- The bytes past the sentinel are those of the value (30_encoding.md R75). -/
theorem readByte_of_holdsChunk_long {v : BitVec 64} (h : m.HoldsChunk b (.l9 v)) {n : Nat} (hn : n < 8) :
    m.readByte (b + 1 + n) = v.extractLsb' (8 * n) 8 := by
  have hbytes : m.Holds b ([0x00] ++ leBytes 8 v.toNat) := h.2
  have hlen : n < (leBytes 8 v.toNat).length := by rwa [length_leBytes]
  calc m.readByte (b + 1 + n) = (leBytes 8 v.toNat)[n] := (holds_append.1 hbytes).2 n hlen
    _ = (m.memWrite (b + 1) 8 v).readByte (b + 1 + n) := (memWrite_holds m (b + 1) v le_rfl n hlen).symm
    _ = v.extractLsb' (8 * n) 8 := readByte_memWrite_inside m (b + 1) v hn

/-- A long form is not canonical exactly below `LONG_MIN` (30_encoding.md R76, R77). -/
theorem not_canonical_long_iff (v : U64) : canonical 9 v = false ↔ v.toNat < Config.longMin := by
  rw [← Bool.not_eq_true, canonical_long_iff, Nat.not_le]
  rfl

/-- The last byte of a long form says whether it is canonical (42_decoder_safe.md R154). -/
theorem not_canonical_iff_lastByte {v : BitVec 64} (h : m.HoldsChunk b (.l9 v)) :
    canonical 9 v = false ↔ m.readByte (b + 8) = 0x00 := by
  have hlast : m.readByte (b + 8) = v.extractLsb' 56 8 := readByte_of_holdsChunk_long h (n := 7) (by omega)
  have hv := v.isLt
  rw [not_canonical_long_iff, hlast, ← BitVec.toNat_inj, BitVec.extractLsb'_toNat, Nat.shiftRight_eq_div_pow,
    Config.longMin]
  change v.toNat < 72057594037927936 ↔ v.toNat / 2 ^ 56 % 2 ^ 8 = 0
  omega

/-! ## The datapath on the chunk -/

/-- The datapath reads the chunk at `begin`: the bytes available are compared with its length, then a long form is
checked for being canonical, as in the read of a `DECS` walk (42_decoder_safe.md R161). -/
theorem decsBody_of_holdsChunk (h : s.mem.HoldsChunk b i) (avail : Nat) : decsBody s b avail =
    if avail < chunkLength i then failDecs s .eTruncated
    else if chunkLength i = 9 ∧ canonical (chunkLength i) (chunkValue i) = false then failDecs s .eNoncanonical
    else succeedDecs s (chunkValue i) (b + chunkLength i) := by
  by_cases hempty : avail = 0
  · have hpos := (chunkLength_bounds h.1).1
    rw [decsBody, if_pos hempty, if_pos (by omega)]
  rw [decsBody, if_neg hempty]
  obtain ⟨k, hk, hL⟩ | ⟨v, rfl⟩ := chunk_cases h.1
  · obtain ⟨hlsb, hne⟩ := firstByte_short h hk hL
    have hshort : ¬ (k + 1 = 9 ∧ canonical (k + 1) (chunkValue i) = false) := by omega
    rw [if_neg hne, hlsb, decsShort, exactCopy_eq_shortValue s.mem b hk, shortValue_of_holdsChunk h hk hL, hL,
      if_neg hshort]
  · rw [if_pos (firstByte_long h), decsLong, longValue_of_holdsChunk h]
    simp only [chunkLength, chunkValue, not_canonical_long_iff, true_and]

/-- A window that does not hold the declared length, be it empty, fails (42_decoder_safe.md R152, R154, R155). -/
theorem decsBody_truncated (hcut : avail < declaredLength (s.mem.readByte b)) :
    decsBody s b avail = failDecs s .eTruncated := by
  obtain ⟨i, h, hL⟩ := exists_holdsChunk s.mem b
  rw [decsBody_of_holdsChunk h, hL, if_pos hcut]

/-- A chunk the window holds is delivered, unless it is a long form that is not canonical (42_decoder_safe.md R161). -/
theorem decsBody_delivers (h : s.mem.HoldsChunk b i) (hfit : chunkLength i ≤ avail)
    (hV : chunkLength i = 9 → canonical (chunkLength i) (chunkValue i) = true) :
    decsBody s b avail = succeedDecs s (chunkValue i) (b + chunkLength i) := by
  have hno : ¬ (chunkLength i = 9 ∧ canonical (chunkLength i) (chunkValue i) = false) := fun ⟨hL, hcanon⟩ =>
    Bool.noConfusion ((hV hL).symm.trans hcanon)
  rw [decsBody_of_holdsChunk h, if_neg (Nat.not_lt.2 hfit), if_neg hno]

/-- A long form that is not canonical fails, though the window holds it (42_decoder_safe.md R154). -/
theorem decsBody_noncanonical {v : BitVec 64} (h : s.mem.HoldsChunk b (.l9 v)) (hfit : 9 ≤ avail)
    (hV : canonical 9 v = false) : decsBody s b avail = failDecs s .eNoncanonical := by
  rw [decsBody_of_holdsChunk h]
  exact (if_neg (Nat.not_lt.2 hfit)).trans (if_pos ⟨rfl, hV⟩)

/-- A success is the delivery of the chunk at `begin`, which the window holds. -/
theorem decsBody_ok (h : s.mem.HoldsChunk b i) {v : U64} {newBegin : Nat}
    (hok : (decsBody s b avail).result = some (.decs .ok v newBegin)) :
    chunkLength i ≤ avail ∧ (chunkLength i = 9 → canonical (chunkLength i) (chunkValue i) = true) ∧
      v = chunkValue i ∧ newBegin = b + chunkLength i := by
  rw [decsBody_of_holdsChunk h] at hok
  split_ifs at hok with hcut hV
  · exact absurd hok (failDecs_result_ne_ok s (by decide) v newBegin)
  · exact absurd hok (failDecs_result_ne_ok s (by decide) v newBegin)
  · obtain ⟨-, rfl, rfl⟩ := Result.decs.inj (Option.some.inj hok)
    exact ⟨Nat.not_lt.1 hcut, fun hL => Bool.eq_true_of_not_eq_false fun hcanon => hV ⟨hL, hcanon⟩, rfl, rfl⟩

/-! ## The statements -/

theorem exec_decs_of_admitted (hadm : s.DecsAdmitted b e) : exec (.decs b e) s = .next (decsBody s b (e - b)) :=
  execDecs_of_admitted hadm

/-- On the canonical chunk of a value that the window holds, `DECS` returns that value and the cursor past the chunk
(42_decoder_safe.md R159). -/
theorem exec_decs_of_encBytes {v : U64} (hadm : s.DecsAdmitted b e) (h : s.mem.Holds b (encBytes v))
    (hfit : b + encLen v ≤ e) : SucceedsWith s v (b + encLen v) (exec (.decs b e) s) := by
  have hdelivers := decsBody_delivers (avail := e - b) (holdsChunk_formFor.2 h)
    (by rw [chunkLength_formFor]; omega) fun _ => canonical_formFor v
  rw [exec_decs_of_admitted hadm, hdelivers, chunkValue_formFor, chunkLength_formFor]
  rfl

/-- Settles O42: `ENC` leaves the canonical chunk of its value, and a later state that agrees on those bytes holds it
too. -/
theorem encThenDecsReturnsTheValue : Obligations.EncThenDecsReturnsTheValue := by
  intro s t u v a e len henc hlen hagree hfit hadm
  obtain ⟨-, rfl⟩ := execEnc_next henc
  obtain rfl : encLen v = len := Result.enc.inj (Option.some.inj ((encAfter_result s v a).symm.trans hlen))
  rw [← length_encBytes] at hagree
  exact exec_decs_of_encBytes hadm (holds_congr hagree (encAfter_holds s v a)) hfit

/-- Settles O29: a zero byte begins a long form, whose last byte says whether its value reaches `2^56`. -/
theorem decsLongFormBranch : Obligations.DecsLongFormBranch := by
  intro s b e hadm _ hzero
  obtain ⟨v, hchunk⟩ := exists_holdsChunk_long hzero
  have hlast := not_canonical_iff_lastByte hchunk
  rw [exec_decs_of_admitted hadm]
  refine ⟨fun hcut => ?_, fun hfit h8 => ?_, fun hfit h8 => ?_⟩
  · rw [decsBody_truncated (by rwa [declaredLength_of_holdsChunk hchunk])]
    exact failsWith_failDecs s .eTruncated
  · rw [decsBody_noncanonical hchunk hfit (hlast.2 h8)]
    exact failsWith_failDecs s .eNoncanonical
  · have hcanon : canonical 9 v = true := Bool.eq_true_of_not_eq_false (mt hlast.1 h8)
    rw [decsBody_delivers hchunk hfit fun _ => hcanon]
    exact ⟨v, fun n hn => readByte_of_holdsChunk_long hchunk hn, (canonical_long_iff v).1 hcanon, rfl⟩

/-- Settles O30: the chunk is a short form, which is never checked for being canonical, and its value is that of the
shared short path. -/
theorem decsShortFormBranch : Obligations.DecsShortFormBranch := by
  rintro s b e _ hadm _ hne rfl
  have hk := lsb8_le (s.mem.readByte b)
  have hdeclared : declaredLength (s.mem.readByte b) = lsb8 (s.mem.readByte b) + 1 :=
    (declaredLength_eq _).trans (if_neg hne)
  obtain ⟨i, hchunk, hL⟩ := exists_holdsChunk s.mem b
  rw [hdeclared] at hL
  rw [exec_decs_of_admitted hadm]
  refine ⟨fun hcut => ?_, fun hfit => ⟨chunkValue i, ?_, ?_⟩⟩
  · rw [decsBody_truncated (hdeclared ▸ hcut)]
    exact failsWith_failDecs s .eTruncated
  · rw [← shortValue_of_holdsChunk hchunk hk hL, shortValue_toNat s.mem b hk]
  · rw [decsBody_delivers hchunk (hL ▸ hfit) (by omega), hL]
    rfl

/-- Settles O31: the two checks of R161 on the chunk at `begin` leave three ends, and a chunk that passes the first has
its length inside the window. -/
theorem decsAlwaysCompletes : Obligations.DecsAlwaysCompletes := by
  intro s b e hadm
  obtain ⟨i, hchunk, -⟩ := exists_holdsChunk s.mem b
  have hpos := (chunkLength_bounds hchunk.1).1
  rw [exec_decs_of_admitted hadm, decsBody_of_holdsChunk hchunk]
  split_ifs
  · exact .inr (.inl (failsWith_failDecs s .eTruncated))
  · exact .inr (.inr (failsWith_failDecs s .eNoncanonical))
  · exact .inl ⟨chunkValue i, b + chunkLength i, by omega, by omega, rfl⟩

/-- `DECS` does the same over any memory with the same bytes of the declared length (42_decoder_safe.md R156). -/
theorem decsBody_withMem_chunk (h : s.mem.AgreeOn m b (b + declaredLength (s.mem.readByte b))) (avail : Nat) :
    decsBody (s.withMem m) b avail = (decsBody s b avail).withMem m := by
  obtain ⟨i, hchunk, hL⟩ := exists_holdsChunk s.mem b
  have hchunk' : (s.withMem m).mem.HoldsChunk b i := holdsChunk_congr (hL ▸ h) hchunk
  rw [decsBody_of_holdsChunk hchunk, decsBody_of_holdsChunk hchunk']
  split_ifs <;> rfl

/-- Of a window too short for the declared length `DECS` looks at the first byte alone, and not at that if the window
is empty (42_decoder_safe.md R156). -/
theorem decsBody_withMem_truncated (hcut : avail < declaredLength (s.mem.readByte b))
    (hfirst : 0 < avail → m.readByte b = s.mem.readByte b) :
    decsBody (s.withMem m) b avail = (decsBody s b avail).withMem m := by
  have hcut' : avail < declaredLength ((s.withMem m).mem.readByte b) := by
    obtain rfl | hpos := Nat.eq_zero_or_pos avail
    · exact (declaredLength_bounds _).1
    · rwa [State.withMem_mem, hfirst hpos]
  rw [decsBody_truncated hcut, decsBody_truncated hcut']
  rfl

/-- Settles O32: `DECS` is local to its window, to the declared length, and to the first byte of a window too short for
that; on success the declared length is the distance the cursor moves. -/
theorem decsReadsInsideItsWindow : Obligations.DecsReadsInsideItsWindow := by
  intro s t m b e hexec
  obtain ⟨hadm, rfl⟩ := execDecs_next hexec
  have hadm' : (s.withMem m).DecsAdmitted b e := hadm
  have hexec' := exec_decs_of_admitted hadm'
  have hend : b + (e - b) = e := Nat.add_sub_cancel' hadm.1
  refine ⟨fun hagree => ?_, fun v newBegin hok hagree => ?_, fun _ hagree => ?_, fun hcut hfirst => ?_⟩
  · exact hexec'.trans (congrArg _ (decsBody_withMem (hend.symm ▸ hagree)))
  · obtain ⟨i, hchunk, hL⟩ := exists_holdsChunk s.mem b
    obtain ⟨-, -, -, rfl⟩ := decsBody_ok hchunk hok
    exact hexec'.trans (congrArg _ (decsBody_withMem_chunk (hL ▸ hagree) _))
  · exact hexec'.trans (congrArg _ (decsBody_withMem_chunk hagree _))
  · exact hexec'.trans (congrArg _ (decsBody_withMem_truncated hcut fun hpos => hfirst (Nat.lt_of_sub_pos hpos)))

/-- Settles O33: `DECF` returns the value and the length of the canonical chunk at `begin`, and so does `DECS` where the
window holds that length. -/
theorem decsAgreesWithDecf : Obligations.DecsAgreesWithDecf := by
  intro s t x v b e len hchunk hdecf hresult hfit hadm
  obtain ⟨hdecfAdm, -, -⟩ := execDecf_next hdecf
  rw [exec_decf_of_encBytes hdecfAdm hchunk] at hdecf
  obtain rfl := Host.Outcome.next.inj hdecf
  obtain ⟨rfl, rfl⟩ : x = v ∧ encLen x = len := Result.decf.inj (Option.some.inj hresult)
  exact exec_decs_of_encBytes hadm hchunk hfit

/-- Settles O34: a success says that the window holds the chunk and that its value passed, and the longer window holds
the same chunk. -/
theorem decsLongerWindowKeepsASuccess : Obligations.DecsLongerWindowKeepsASuccess := by
  intro s b e e' newBegin v hsuccess hle hadm'
  obtain ⟨-, hend⟩ := execDecs_next hsuccess
  have hok : (decsBody s b (e - b)).result = some (.decs .ok v newBegin) := hend ▸ rfl
  obtain ⟨i, hchunk, -⟩ := exists_holdsChunk s.mem b
  obtain ⟨hfit, hV, rfl, rfl⟩ := decsBody_ok hchunk hok
  rw [exec_decs_of_admitted hadm', decsBody_delivers hchunk (by omega) hV]
  rfl

/-- Settles O28: an empty window has no byte outside the contract, and holds no declared length. -/
theorem decsOnAnEmptyWindow : Obligations.DecsOnAnEmptyWindow := by
  intro s a ha
  have hadm : s.DecsAdmitted a a := ⟨le_rfl, ha, fun x hlo hhi => absurd hhi (Nat.not_lt.2 hlo)⟩
  have hcut : a - a < declaredLength (s.mem.readByte a) := (Nat.sub_self a).symm ▸ (declaredLength_bounds _).1
  rw [exec_decs_of_admitted hadm, decsBody_truncated hcut]
  exact failsWith_failDecs s .eTruncated

/-- Settles O35: bounds out of order, an end that is no address and one byte that is not readable each leave the window
not granted. -/
theorem decsOutsideItsWindowIsRefused : Obligations.DecsOutsideItsWindowIsRefused := by
  intro s b e hout
  have hgrant : (boundsLegal s b e && grants s s.readable b e) = false := by
    obtain horder | htop | ⟨x, hlo, hhi, hx⟩ := hout
    · rw [boundsLegal, decide_eq_false (Nat.not_le.2 horder), Bool.false_and, Bool.false_and]
    · rw [boundsLegal, decide_eq_false (Nat.not_lt.2 htop), Bool.and_false, Bool.false_and]
    · rw [grants_eq_false hlo hhi hx, Bool.and_false]
  have hadmit : admitDecs s b e = some .decsWindow := by rw [admitDecs, hgrant, admission_not_granted]
  rw [exec, execDecs, hadmit, guarded_some]

end Sys2Proof.Machine
end

section
/-! PROOFS. Appending a stream (45_stream.md R171, R174, R175). -/

namespace Sys2Proof.Machine

variable {s t : State} {v : U64} {vs : List U64} {p q b e : Nat}

/-! ## The bytes of a stream (45_stream.md R171) -/

/-- A stream that memory holds is its first chunk and, past that, the rest. -/
theorem holds_streamBytes_cons {m : Memory} : m.Holds b (streamBytes (v :: vs)) ↔
    m.Holds b (encBytes v) ∧ m.Holds (b + encLen v) (streamBytes vs) := by
  rw [streamBytes_cons, holds_append, length_encBytes]

theorem length_streamBytes_cons (v : U64) (vs : List U64) :
    (streamBytes (v :: vs)).length = encLen v + (streamBytes vs).length := by
  rw [streamBytes_cons, List.length_append, length_encBytes]

/-- Every chunk takes a byte or more (30_encoding.md R70). -/
theorem length_le_length_streamBytes (vs : List U64) : vs.length ≤ (streamBytes vs).length := by
  induction vs with
  | nil => exact le_rfl
  | cons v vs ih =>
    have hpos := (encLen_bounds v).1
    rw [length_streamBytes_cons, List.length_cons]
    omega

/-! ## One `ENC` of an append (45_stream.md R174) -/

/-- An append writes the first chunk, then appends the rest past it. -/
theorem appendStream_cons (hadm : s.EncAdmitted p) (v : U64) (vs : List U64) :
    appendStream (v :: vs) p s = appendStream vs (p + encLen v) (encAfter s v p) := by
  have hexec : execEncP v p s = .next (encAfter s v p, some (p + encLen v)) :=
    thenConvert_next (endPtr p) (execEnc_of_admitted hadm v) (encAfter_result s v p)
  rw [appendStream, hexec]

/-- An append of a chunk and more that completes is an `ENC` and an append of the rest that completes. -/
theorem appendStream_cons_next (h : appendStream (v :: vs) p s = .next (q, t)) :
    appendStream vs (p + encLen v) (encAfter s v p) = .next (q, t) := by
  cases henc : exec (.enc v p) s with
  | next s' => exact appendStream_cons (execEnc_next henc).1 v vs ▸ h
  | fault f => cases f
  | refused why => simp [appendStream, execEncP, thenConvert, henc] at h

/-! ## What an append leaves (45_stream.md R174) -/

/-- The windows of the rest of an append do not pass the last window of the whole. -/
theorem appendPast_rest_le (v : U64) (vs : List U64) (p : Nat) :
    appendPast vs (p + encLen v) ≤ appendPast (v :: vs) p := by
  cases vs with
  | nil =>
    rw [appendPast_nil, appendPast_one]
    exact Nat.add_le_add_left (encLen_bounds v).2 p
  | cons w ws => rw [appendPast_cons_cons, length_encBytes]

theorem appendStream_position (h : appendStream vs p s = .next (q, t)) : q = p + (streamBytes vs).length := by
  induction vs generalizing p s with
  | nil => exact (congrArg Prod.fst (Host.Outcome.next.inj h)).symm
  | cons v vs ih =>
    rw [ih (appendStream_cons_next h), length_streamBytes_cons, Nat.add_assoc]

/-- An append changes no field but those an `ENC` does. -/
theorem appendStream_frame (h : appendStream vs p s = .next (q, t)) :
    t = { s with mem := t.mem, result := t.result, draws := t.draws } := by
  induction vs generalizing p s with
  | nil =>
    obtain ⟨-, rfl⟩ := Prod.mk.inj (Host.Outcome.next.inj h)
    rfl
  | cons v vs ih =>
    have hrest := ih (appendStream_cons_next h)
    rwa [encAfter_frame] at hrest

/-- No window of an append begins below its start or passes its last window. -/
theorem appendStream_agreeOutside (h : appendStream vs p s = .next (q, t)) :
    t.mem.AgreeOutside s.mem p (appendPast vs p) := by
  induction vs generalizing p s with
  | nil =>
    obtain ⟨-, rfl⟩ := Prod.mk.inj (Host.Outcome.next.inj h)
    exact fun _ _ => rfl
  | cons v vs ih =>
    intro x hx
    have hfirst := appendPast_first v vs p
    have hrest := appendPast_rest_le v vs p
    calc t.mem.readByte x = (encAfter s v p).mem.readByte x := ih (appendStream_cons_next h) x (by omega)
      _ = s.mem.readByte x := encAfter_agreeOutside s v p x (by omega)

/-- Each `ENC` leaves its chunk, and those after it write above that (45_stream.md R175). -/
theorem appendStream_holds (h : appendStream vs p s = .next (q, t)) : t.mem.Holds p (streamBytes vs) := by
  induction vs generalizing p s with
  | nil => exact fun n hn => absurd hn (Nat.not_lt_zero n)
  | cons v vs ih =>
    have hrest := appendStream_cons_next h
    have hlow : (encAfter s v p).mem.AgreeOn t.mem p (p + (encBytes v).length) := fun x _ hx =>
      (appendStream_agreeOutside hrest x (.inl (length_encBytes v ▸ hx))).symm
    exact holds_streamBytes_cons.2 ⟨holds_congr hlow (encAfter_holds s v p), ih hrest⟩

/-! ## An append completes -/

/-- `ENC`s may write `a .. e-1`: writable plain memory no other agent uses. `EncAdmitted` says it of nine bytes. -/
def State.WriteAdmitted (s : State) (a e : Nat) : Prop :=
  ∀ x, a ≤ x → x < e → s.WritableAt x ∧ ¬ s.DeviceAt x ∧ ¬ s.UsedAt x

theorem State.WriteAdmitted.encAfter (h : s.WriteAdmitted b e) (v : U64) (dest : Nat) :
    (encAfter s v dest).WriteAdmitted b e := by
  rw [encAfter_frame]
  exact h

theorem State.WriteAdmitted.mono (h : s.WriteAdmitted b e) {b' e' : Nat} (hb : b ≤ b') (he : e' ≤ e) :
    s.WriteAdmitted b' e' := fun x hlo hhi => h x (hb.trans hlo) (hhi.trans_le he)

theorem appendStream_completes (h : s.WriteAdmitted p (appendPast vs p)) :
    ∃ q t, appendStream vs p s = .next (q, t) := by
  induction vs generalizing p s with
  | nil => exact ⟨p, s, rfl⟩
  | cons v vs ih =>
    have henc : s.EncAdmitted p := h.mono le_rfl (appendPast_first v vs p)
    rw [appendStream_cons henc]
    exact ih ((h.encAfter v p).mono (Nat.le_add_right p _) (appendPast_rest_le v vs p))

/-- Settles O43: each `ENC` is admitted by the buffer up to the last window, and what an append that completes leaves
is said of its position, its bytes and its frame. -/
theorem appendWritesTheStream : Obligations.AppendWritesTheStream := by
  intro vs p s hadm
  obtain ⟨q, t, h⟩ := appendStream_completes (show s.WriteAdmitted p (appendPast vs p) from hadm)
  obtain rfl := appendStream_position h
  refine ⟨t, h, appendStream_holds h, appendStream_agreeOutside h, ?_⟩
  rw [appendStream_frame h]

end Sys2Proof.Machine
end

section
/-! PROOFS. Walking a stream that memory holds, with either decoder (45_stream.md R176 to R178). -/

namespace Sys2Proof.Machine

variable {s u : State} {v : U64} {vs : List U64} {p b e : Nat}

/-- The values a walk took before the rest of it. -/
theorem foldr_walkOn_next (vs : List U64) (c : Nat) (f : Option Status) (w : State) :
    vs.foldr walkOn (.next ⟨[], c, f, w⟩) = .next ⟨vs, c, f, w⟩ := by
  induction vs with
  | nil => rfl
  | cons v vs ih => rw [List.foldr_cons, ih]; rfl

theorem State.ReadAdmitted.mono (h : s.ReadAdmitted b e) {b' e' : Nat} (hb : b ≤ b') (he : e' ≤ e) :
    s.ReadAdmitted b' e' := fun x hlo hhi => h x (hb.trans hlo) (hhi.trans_le he)

/-! ## Walking with `DECS` -/

/-- The rest of an admitted window is admitted, whatever the result fields hold. -/
theorem State.DecsAdmitted.advance (h : u.DecsAdmitted b e) (r : Option Result) (hlo : b ≤ p) (hhi : p ≤ e) :
    (u.withResult r).DecsAdmitted p e := ⟨hhi, h.2.1, h.2.2.mono hlo le_rfl⟩

/-- A success of a `DECS` walk takes one value and goes on (45_stream.md R177). -/
theorem walkSafe_delivers (hlt : b < e) (h : SucceedsWith u v p (exec (.decs b e) u)) (n : Nat) :
    walkSafe (n + 1) b e u = walkOn v (walkSafe n p e (u.withResult (some (.decs .ok v p)))) := by
  rw [walkSafe, if_pos hlt, h]
  rfl

/-- Over a stream that its window holds a `DECS` walk takes the values and goes on past them: each success changes the
result fields alone, so the rest of the window stays admitted. -/
theorem walkSafe_stream (h : u.mem.Holds b (streamBytes vs)) (hadm : u.DecsAdmitted b e)
    (hfit : b + (streamBytes vs).length ≤ e) (n : Nat) :
    ∃ r, walkSafe (vs.length + n) b e u =
      vs.foldr walkOn (walkSafe n (b + (streamBytes vs).length) e (u.withResult r)) := by
  induction vs generalizing b u with
  | nil => exact ⟨u.result, by rw [List.length_nil, Nat.zero_add]; rfl⟩
  | cons v vs ih =>
    obtain ⟨hchunk, hrest⟩ := holds_streamBytes_cons.1 h
    rw [length_streamBytes_cons, ← Nat.add_assoc] at hfit
    have hpos := (encLen_bounds v).1
    have hadm' := hadm.advance (some (.decs .ok v (b + encLen v))) (Nat.le_add_right b (encLen v)) (by omega)
    obtain ⟨r, hwalk⟩ := ih (u := u.withResult (some (.decs .ok v (b + encLen v)))) hrest hadm' hfit
    refine ⟨r, ?_⟩
    rw [List.length_cons, Nat.add_right_comm,
      walkSafe_delivers (by omega) (exec_decs_of_encBytes hadm hchunk (by omega)), hwalk, length_streamBytes_cons,
      ← Nat.add_assoc]
    rfl

/-- A walk at the end of its window has nothing more to take (45_stream.md R177). -/
theorem walkSafe_end (n e : Nat) (u : State) : walkSafe n e e u = .next ⟨[], e, none, u⟩ := by
  cases n with
  | zero => rfl
  | succ n => exact if_neg (Nat.lt_irrefl e)

/-- A chunk that its window cuts stops a `DECS` walk, with the cursor at its start (45_stream.md R172, R177). -/
theorem walkSafe_truncated {n : Nat} (hn : 0 < n) (hlt : b < e) (hadm : u.DecsAdmitted b e)
    (hcut : e - b < declaredLength (u.mem.readByte b)) : walkSafe n b e u =
      .next ⟨[], b, some (reportCause u.cfg.errDetail .eTruncated), failDecs u .eTruncated⟩ := by
  obtain ⟨n, rfl⟩ := Nat.exists_eq_succ_of_ne_zero hn.ne'
  rw [walkSafe, if_pos hlt, exec_decs_of_admitted hadm, decsBody_truncated hcut]
  cases hd : u.cfg.errDetail <;> simp [failDecs, reportCause, hd]

/-- As many operations as the window has bytes are enough for the stream, and leave some for what follows it. -/
theorem walkWindow_stream (h : u.mem.Holds b (streamBytes vs)) (hadm : u.DecsAdmitted b e)
    (hfit : b + (streamBytes vs).length ≤ e) : ∃ r, walkWindow b e u =
      vs.foldr walkOn (walkSafe (e - b - vs.length) (b + (streamBytes vs).length) e (u.withResult r)) := by
  have hlen := length_le_length_streamBytes vs
  have hfuel : vs.length + (e - b - vs.length) = e - b := by omega
  rw [walkWindow, ← hfuel, Nat.add_sub_cancel_left]
  exact walkSafe_stream h hadm hfit _

/-! ## Walking with `DECF` -/

/-- Over a stream followed by 8 readable bytes a `DECF` walk takes the values: each window starts inside the stream, so
it passes its end by 8 bytes at most (45_stream.md R176). -/
theorem walkFast_stream (h : u.mem.Holds b (streamBytes vs)) (hadm : u.ReadAdmitted b e)
    (hfit : b + (streamBytes vs).length + 8 ≤ e) :
    ∃ r, walkFast vs.length b u = .next ⟨vs, b + (streamBytes vs).length, none, u.withResult r⟩ := by
  induction vs generalizing b u with
  | nil => exact ⟨u.result, rfl⟩
  | cons v vs ih =>
    obtain ⟨hchunk, hrest⟩ := holds_streamBytes_cons.1 h
    rw [length_streamBytes_cons, ← Nat.add_assoc] at hfit
    have hpos := (encLen_bounds v).1
    have hdecf : u.DecfAdmitted b := hadm.mono le_rfl (by omega)
    have hadm' := hadm.mono (Nat.le_add_right b (encLen v)) le_rfl
    obtain ⟨r, hwalk⟩ := ih (u := u.withResult (some (.decf v (encLen v)))) hrest hadm' hfit
    refine ⟨r, ?_⟩
    rw [List.length_cons, walkFast, exec_decf_of_encBytes hdecf hchunk, length_streamBytes_cons, ← Nat.add_assoc]
    exact congrArg (walkOn v) hwalk

/-! ## The statements -/

/-- Settles O44: a later state that agrees on the stream's bytes holds the stream, and either walk takes a stream that
memory holds. -/
theorem streamRoundTrip : Obligations.StreamRoundTrip := by
  intro vs p q s t u happend hagree
  obtain rfl := appendStream_position happend
  have hstream : u.mem.Holds p (streamBytes vs) := holds_congr hagree (appendStream_holds happend)
  refine ⟨fun hadm => ?_, fun hadm => ?_⟩
  · obtain ⟨r, hwalk⟩ := walkWindow_stream hstream hadm le_rfl
    rw [walkSafe_end, foldr_walkOn_next] at hwalk
    exact ⟨_, hwalk⟩
  · obtain ⟨r, hwalk⟩ := walkFast_stream hstream hadm le_rfl
    exact ⟨_, hwalk⟩

/-- The first byte of a cut chunk declares the length of the whole one (30_encoding.md R72). -/
theorem declaredLength_of_holds_take {m : Memory} {cut : Nat} (h : m.Holds b ((encBytes v).take cut))
    (hpos : 0 < cut) : declaredLength (m.readByte b) = encLen v := by
  have hlen := length_encBytes v
  have hpos' := (encLen_bounds v).1
  obtain ⟨first, rest, hbytes⟩ := List.exists_cons_of_length_pos (l := encBytes v) (by omega)
  have hfirst : m.readByte b = first := by simpa [hbytes] using h 0 (by rw [List.length_take]; omega)
  rw [hfirst, declaredLength_encodeChunk (isChunk_formFor v) hbytes, chunkLength_formFor]

/-- Settles O45: the walk takes the whole chunks, and the first byte of the cut one, which the window holds, declares
more than the window has left. -/
theorem walkOfACutStream : Obligations.WalkOfACutStream := by
  intro vs v p cut u h hpos hcut hadm
  obtain ⟨hstream, htake⟩ := holds_append.1 h
  rw [length_encBytes, ← declaredLength_of_holds_take htake hpos] at hcut
  have hlen := length_le_length_streamBytes vs
  obtain ⟨r, hwalk⟩ := walkWindow_stream hstream hadm (Nat.le_add_right _ cut)
  have hadm' := hadm.advance r (Nat.le_add_right p (streamBytes vs).length) (Nat.le_add_right _ cut)
  rw [walkSafe_truncated (by omega) (Nat.lt_add_of_pos_right hpos) hadm' (by rwa [Nat.add_sub_cancel_left]),
    foldr_walkOn_next] at hwalk
  exact ⟨_, hwalk, rfl⟩

end Sys2Proof.Machine
end

section
/-! PROOFS. The step of a walk: what stands at the cursor, read as the operation there reads it (45_stream.md R170,
R172, R176, R177). -/

namespace Sys2Proof.Machine

variable {s : State} {i : Instr}

/-! ## What the step of a walk finds -/

theorem walkGoesOn_iff (s : State) :
    walkGoesOn s = true ↔ s.reader.walking = true ∧ s.reader.begin_ < s.reader.end_ := by
  simp [walkGoesOn]

theorem fetch_walk (hport : s.port = []) (hwalk : walkGoesOn s = true) : fetch s = fetchChunk s := by
  simp only [fetch, hport, hwalk, if_true]

theorem fetch_idle_of_not_walkGoesOn (hport : s.port = []) (hstop : ¬ walkGoesOn s = true) : fetch s = .idle := by
  simp only [fetch, hport, if_neg hstop]

/-- An inadmissible read is refused by the fetch (20_memory.md R51). -/
theorem fetchChunk_refuse {why : Refusal} (hadm : admitReader s = some why) : fetchChunk s = .refuse why := by
  rw [fetchChunk, hadm]

theorem fetchChunk_cutShort (hadm : admitReader s = none)
    (hcut : readerAvail s < declaredLength (s.mem.readByte s.reader.begin_)) : fetchChunk s = .cutShort := by
  simp only [fetchChunk, hadm, if_pos hcut]

/-- The chunk memory holds at the cursor is the one its bytes decode to (30_encoding.md R85). -/
theorem fetchChunk_of_holdsChunk (hadm : admitReader s = none) (h : s.mem.HoldsChunk s.reader.begin_ i)
    (hfit : chunkLength i ≤ readerAvail s) : fetchChunk s = .run i s := by
  have hdecode : decodeChunk (encodeChunk i) = .ok (i, []) := by
    simpa only [List.append_nil] using chunkReadsBackFromStream i [] h.1
  simp only [fetchChunk, hadm, declaredLength_of_holdsChunk h, if_neg (Nat.not_lt.2 hfit),
    readBytes_of_holdsChunk h, hdecode]

/-! ## The step of a walk -/

section
variable (hreset : s.resetPending = false) (hport : s.port = []) (hwalk : walkGoesOn s = true)
include hreset hport hwalk

theorem step_walk_refused {why : Refusal} (hadm : admitReader s = some why) : step s = .refused why := by
  rw [step_of_not_resetPending hreset, stepRun, fetch_walk hport hwalk, fetchChunk_refuse hadm]

theorem step_walk_cutShort (hadm : admitReader s = none)
    (hcut : readerAvail s < declaredLength (s.mem.readByte s.reader.begin_)) : step s = .next (walkTruncated s) := by
  rw [step_of_not_resetPending hreset, stepRun, fetch_walk hport hwalk, fetchChunk_cutShort hadm hcut]

theorem step_walk_run (hadm : admitReader s = none) (h : s.mem.HoldsChunk s.reader.begin_ i)
    (hfit : chunkLength i ≤ readerAvail s) : step s = exec i s := by
  rw [step_of_not_resetPending hreset, stepRun, fetch_walk hport hwalk, fetchChunk_of_holdsChunk hadm h hfit]

/-- A step of an admitted `DECS` walk reads the chunk at the cursor, be it cut or not (45_stream.md R177). -/
theorem step_safeWalk (hdec : s.reader.decoder = .safe) (hadm : s.DecsAdmitted s.reader.begin_ s.reader.end_)
    (h : s.mem.HoldsChunk s.reader.begin_ i) : step s = .next (safeRead (chunkLength i) (chunkValue i) s) := by
  have hadmit : admitReader s = none := by simp only [admitReader, hdec, (admitDecs_none_iff s _ _).2 hadm]
  have havail : readerAvail s = s.reader.end_ - s.reader.begin_ := by simp only [readerAvail, hdec]
  by_cases hcut : s.reader.end_ - s.reader.begin_ < chunkLength i
  · rw [step_walk_cutShort hreset hport hwalk hadmit (by rwa [havail, declaredLength_of_holdsChunk h]), safeRead,
      if_pos hcut]
    rfl
  · rw [step_walk_run hreset hport hwalk hadmit h (by omega), exec_chunk i h.1, readChunk_safe _ _ hdec hadm]

/-- A step of an admitted `DECF` walk runs the chunk at the cursor: its window holds the longest (45_stream.md R176). -/
theorem step_fastWalk (hdec : s.reader.decoder = .fast) (hadm : s.DecfAdmitted s.reader.begin_)
    (h : s.mem.HoldsChunk s.reader.begin_ i) : step s = exec i s := by
  have hadmit : admitReader s = none := by simp only [admitReader, hdec, (admitDecf_none_iff s _).2 hadm]
  have havail : readerAvail s = 9 := by simp only [readerAvail, hdec]
  exact step_walk_run hreset hport hwalk hadmit h (havail ▸ (chunkLength_bounds h.1).2)

end

/-! ## The statements about a step alone -/

/-- Settles O10: the port gives no command and the walk does not go on, so the fetch finds nothing. -/
theorem stepWithNothingToDoIsIdle : Obligations.StepWithNothingToDoIsIdle := by
  intro s hreset hport hdone
  have hstop : ¬ walkGoesOn s = true := by
    rw [walkGoesOn_iff]
    rintro ⟨hwalking, hlt⟩
    obtain hno | hend := hdone
    · exact Bool.false_ne_true (hno.symm.trans hwalking)
    · exact Nat.not_le.2 hlt hend
  rw [step_of_not_resetPending hreset, stepRun, fetch_idle_of_not_walkGoesOn hport hstop]

/-- Settles O9: the chunk at the cursor is the one the fetch decodes, and both clauses say that its bytes may be
read. -/
theorem stepRunsTheChunkAtTheCursor : Obligations.StepRunsTheChunkAtTheCursor := by
  intro s i hreset hport hwalking hlt h hadm
  have hwalk : walkGoesOn s = true := (walkGoesOn_iff s).2 ⟨hwalking, hlt⟩
  obtain ⟨hdec, hadm, -⟩ | ⟨hdec, hadm⟩ := hadm
  · rw [step_safeWalk hreset hport hwalk hdec hadm h, exec_chunk i h.1, readChunk_safe _ _ hdec hadm]
  · exact step_fastWalk hreset hport hwalk hdec hadm h

/-- Settles O12: some chunk stands at the cursor, and the length it declares is its own. -/
theorem walkStopsAtACutChunk : Obligations.WalkStopsAtACutChunk := by
  intro s hreset hport hwalking hdec hlt hadm hcut
  have hwalk : walkGoesOn s = true := (walkGoesOn_iff s).2 ⟨hwalking, hlt⟩
  obtain ⟨i, h, hL⟩ := exists_holdsChunk s.mem s.reader.begin_
  rw [step_safeWalk hreset hport hwalk hdec hadm h, safeRead, if_pos (hL ▸ hcut)]
  exact failsWith_failDecs s.stopWalk .eTruncated

/-! ## The step and the operation at the cursor -/

theorem refused_ne_next (why : Refusal) (t : State) :
    (.refused why : Host.Outcome State Fault Refusal) ≠ .next t := by simp

/-- The read of a `DECS` walk ends as `DECS` at the cursor does, with the walk stopped after a failure and the cursor at
`new_begin` after a success (45_stream.md R172). -/
theorem safeRead_eq_decsBody (h : s.mem.HoldsChunk s.reader.begin_ i) :
    (∃ cause, cause ≠ .ok ∧
      decsBody s s.reader.begin_ (s.reader.end_ - s.reader.begin_) = failDecs s cause ∧
      safeRead (chunkLength i) (chunkValue i) s = (failDecs s cause).stopWalk) ∨
    ∃ v newBegin,
      decsBody s s.reader.begin_ (s.reader.end_ - s.reader.begin_) = succeedDecs s v newBegin ∧
      safeRead (chunkLength i) (chunkValue i) s = (succeedDecs s v newBegin).moveCursor newBegin := by
  rw [decsBody_of_holdsChunk h, safeRead]
  split_ifs
  · exact .inl ⟨.eTruncated, by decide, rfl, rfl⟩
  · exact .inl ⟨.eNoncanonical, by decide, rfl, rfl⟩
  · exact .inr ⟨_, _, rfl, rfl⟩

/-- Settles O39: the walk asks for the admission `DECS` asks for, and reads the chunk at the cursor as `DECS` does. -/
theorem safeWalkStepIsDecs : Obligations.SafeWalkStepIsDecs := by
  intro s hreset hport hwalking hdec hlt
  have hwalk : walkGoesOn s = true := (walkGoesOn_iff s).2 ⟨hwalking, hlt⟩
  cases hadmit : admitDecs s s.reader.begin_ s.reader.end_ with
  | some why =>
    have hexec : exec (.decs s.reader.begin_ s.reader.end_) s = .refused why := by
      rw [exec, execDecs, hadmit, guarded_some]
    have hstep : step s = .refused why :=
      step_walk_refused hreset hport hwalk (by simp only [admitReader, hdec, hadmit])
    rw [hexec, hstep]
    exact ⟨fun t ht => absurd ht (refused_ne_next why t), fun _ => Iff.rfl⟩
  | none =>
    have hadm := (admitDecs_none_iff s _ _).1 hadmit
    obtain ⟨i, h, -⟩ := exists_holdsChunk s.mem s.reader.begin_
    rw [exec_decs_of_admitted hadm, step_safeWalk hreset hport hwalk hdec hadm h]
    refine ⟨fun t ht => ?_, fun why => iff_of_false (refused_ne_next why _).symm (refused_ne_next why _).symm⟩
    obtain rfl := Host.Outcome.next.inj ht
    obtain ⟨cause, hcause, hdecs, hread⟩ | ⟨v, newBegin, hdecs, hread⟩ := safeRead_eq_decsBody h
    · rw [hdecs, hread]
      exact ⟨fun v a hok => absurd hok (failDecs_result_ne_ok s hcause v a), fun _ => rfl⟩
    · rw [hdecs, hread]
      refine ⟨fun v' a hok => ?_, fun hno => absurd rfl (hno v newBegin)⟩
      obtain ⟨-, -, rfl⟩ := Result.decs.inj (Option.some.inj hok)
      rfl

/-- Settles O40: the walk asks for the admission and the contract `DECF` asks for, and `DECF` delivers the value and the
length of the chunk at the cursor. -/
theorem fastWalkStepIsDecf : Obligations.FastWalkStepIsDecf := by
  intro s hreset hport hwalking hdec hlt
  have hwalk : walkGoesOn s = true := (walkGoesOn_iff s).2 ⟨hwalking, hlt⟩
  cases hadmit : admitDecf s s.reader.begin_ with
  | some why =>
    have hexec : exec (.decf s.reader.begin_) s = .refused why := by
      rw [exec, execDecf, hadmit, guarded_some]
    have hstep : step s = .refused why :=
      step_walk_refused hreset hport hwalk (by simp only [admitReader, hdec, hadmit])
    rw [hexec, hstep]
    exact ⟨fun t v len ht => absurd ht (refused_ne_next why t), fun _ => Iff.rfl⟩
  | none =>
    have hadm := (admitDecf_none_iff s _).1 hadmit
    obtain ⟨i, h, -⟩ := exists_holdsChunk s.mem s.reader.begin_
    rw [exec_decf_of_holdsChunk hadm h, step_fastWalk hreset hport hwalk hdec hadm h, exec_chunk i h.1,
      readChunk_fast _ _ hdec hadm]
    cases decfContract s (canonical (chunkLength i) (chunkValue i)) with
    | some why =>
      rw [guarded_some, guarded_some]
      exact ⟨fun t v len ht => absurd ht (refused_ne_next why t), fun _ => Iff.rfl⟩
    | none =>
      rw [guarded_none, guarded_none]
      refine ⟨fun t v len ht hresult => ?_,
        fun why => iff_of_false (refused_ne_next why _).symm (refused_ne_next why _).symm⟩
      obtain rfl := Host.Outcome.next.inj ht
      obtain ⟨rfl, rfl⟩ := Result.decf.inj (Option.some.inj hresult)
      rfl

end Sys2Proof.Machine
end

section
/-! PROOFS. A stream splits into its chunks in exactly one way (30_encoding.md R85; 45_stream.md R171). -/

namespace Sys2Proof.Machine

/-- The bytes give a chunk form and what follows it exactly when they are that form's bytes and what follows
(30_encoding.md R79, R85). -/
theorem decodeChunk_ok_iff (bs rest : List Byte) (i : Instr) :
    decodeChunk bs = .ok (i, rest) ↔ isChunk i = true ∧ bs = encodeChunk i ++ rest := by
  constructor
  · intro h
    cases bs with
    | nil => cases h
    | cons b bs =>
      by_cases hfit : declaredLength b ≤ bs.length + 1
      · obtain ⟨j, after, hdecode, hj, -, hbytes⟩ := everyByteSequenceIsOneChunk b bs hfit
        obtain ⟨rfl, rfl⟩ := Prod.mk.inj (Except.ok.inj (hdecode.symm.trans h))
        exact ⟨hj, hbytes⟩
      · have hcut : decodeChunk (b :: bs) = .error .cutShort := if_pos (by simpa using hfit)
        rw [hcut] at h
        cases h
  · rintro ⟨hc, rfl⟩
    exact chunkReadsBackFromStream i rest hc

/-- A split takes chunk forms off the front, one after the other. -/
theorem splitChunks_sound {n : Nat} {bs : List Byte} {cs : List Instr} (h : splitChunks n bs = .ok cs) :
    (∀ i ∈ cs, isChunk i = true) ∧ bs = cs.flatMap encodeChunk := by
  fun_induction splitChunks n bs generalizing cs with
  | case1 n =>
    obtain rfl := Except.ok.inj h
    exact ⟨List.forall_mem_nil _, rfl⟩
  | case2 b bs => cases h
  | case3 n b bs i rest hdecode ih =>
    obtain ⟨hi, hbytes⟩ := (decodeChunk_ok_iff _ _ _).1 hdecode
    cases hrest : splitChunks n rest with
    | error r => simp [hrest, Except.map] at h
    | ok is =>
      rw [hrest] at h
      obtain rfl := Except.ok.inj h
      obtain ⟨his, rfl⟩ := ih hrest
      exact ⟨List.forall_mem_cons.2 ⟨hi, his⟩, hbytes⟩
  | case4 n b bs r hdecode => cases h

/-- Chunk forms laid end to end split into those forms: each takes a byte or more, so the bytes are fuel enough. -/
theorem splitChunks_flatMap {n : Nat} {cs : List Instr} (hc : ∀ i ∈ cs, isChunk i = true)
    (hn : (cs.flatMap encodeChunk).length ≤ n) : splitChunks n (cs.flatMap encodeChunk) = .ok cs := by
  induction cs generalizing n with
  | nil => exact splitChunks_nil n
  | cons i cs ih =>
    obtain ⟨hi, hcs⟩ := List.forall_mem_cons.1 hc
    have hpos := (chunkLength_bounds hi).1
    rw [List.flatMap_cons, List.length_append, length_encodeChunk] at hn
    obtain ⟨n, rfl⟩ := Nat.exists_eq_succ_of_ne_zero (n := n) (by omega)
    rw [List.flatMap_cons, splitChunks_ok (chunkReadsBackFromStream i _ hi), ih hcs (by omega)]
    rfl

/-- Settles O60: the front of the bytes is one chunk form and no other, and so on with what follows it. -/
theorem streamSplitsInOneWay : Obligations.StreamSplitsInOneWay := by
  intro bs cs
  constructor
  · exact splitChunks_sound
  · rintro ⟨hc, rfl⟩
    exact splitChunks_flatMap hc le_rfl

end Sys2Proof.Machine
end

section
/-! PROOFS. An operation in conflict with another agent is not run (20_memory.md R57; 60_exceptions.md R195). -/

namespace Sys2Proof.Machine

theorem guarded_refuses {r : Option Refusal} (h : r ≠ none) (k : Host.Outcome State Fault Refusal) :
    ∃ why, guarded r k = .refused why := by
  obtain ⟨why, rfl⟩ := Option.ne_none_iff_exists'.1 h
  exact ⟨why, guarded_some why k⟩

/-- Settles O56: each contract asks of every byte of the window that no other agent uses it in conflict, so one claimed
byte is enough for the operation not to be admitted. -/
theorem aliasedOperationsAreRefused : Obligations.AliasedOperationsAreRefused := by
  intro s x
  refine ⟨fun v dest hlo hhi hused => ?_, fun src hlo hhi hwritten => ?_, fun b e hlo hhi hwritten => ?_⟩
  · have hnot : ¬ s.EncAdmitted dest := fun hadm => (hadm x hlo hhi).2.2 hused
    exact guarded_refuses (mt (admitEnc_none_iff s dest).1 hnot) _
  · have hnot : ¬ s.DecfAdmitted src := fun hadm => (hadm x hlo hhi).2.2 hwritten
    exact guarded_refuses (mt (admitDecf_none_iff s src).1 hnot) _
  · have hnot : ¬ s.DecsAdmitted b e := fun ⟨_, _, hread⟩ => (hread x hlo hhi).2.2 hwritten
    exact guarded_refuses (mt (admitDecs_none_iff s b e).1 hnot) _

end Sys2Proof.Machine
end

section
/-! PROOFS. An operation cut off by a reset (70_reset_and_hazards.md R221). -/

namespace Sys2Proof.Machine

variable {s u v : State} {i : Instr}

/-! ## What a reset cuts off -/

/-- A reset cuts off the operation the step fetched, if that operation would have completed. -/
theorem step_reset_run (hreset : s.resetPending = true) (hfetch : fetch s = .run i u) (hexec : exec i u = .next v) :
    step s = .next (resetDone (cutEffect i u)) := by
  rw [step_of_resetPending hreset, stepReset, hfetch]
  simp only [cutOff, hexec]

/-- A decoder that is cut off leaves nothing behind. -/
theorem cutEffect_of_not_enc (hi : isEnc i = false) (s : State) : cutEffect i s = s := by
  cases i with
  | enc _ _ => exact Bool.noConfusion hi
  | _ => rfl

theorem isEnc_of_isChunk (hc : isChunk i = true) : isEnc i = false := by
  cases i with
  | enc _ _ => exact Bool.noConfusion hc
  | _ => rfl

/-- Whether the read of a chunk completes does not depend on the reset line. -/
theorem readChunk_completes {L : Nat} {V : U64} {b : Bool} (h : readChunk L V (s.withResetPending b) = .next u) :
    ∃ t, readChunk L V s = .next t := by
  obtain ⟨hdec, hadm, -⟩ | ⟨hdec, hadm, hcontract, -⟩ := readChunk_next h
  · exact ⟨_, readChunk_safe L V hdec hadm⟩
  · exact ⟨_, (readChunk_fast (s := s) L V hdec hadm).trans (congrArg (guarded · _) hcontract)⟩

/-- The decode at the cursor of a walk, cut off: a whole chunk would have been run, and of a cut one only the first byte
was read (42_decoder_safe.md R156). -/
theorem step_reset_walk (hreset : s.resetPending = true) (hport : s.port = []) (hwalk : walkGoesOn s = true)
    (hrun : step (s.withResetPending false) = .next u) : step s = .next (resetDone s) := by
  obtain ⟨i, h, hL⟩ := exists_holdsChunk s.mem s.reader.begin_
  cases hadm : admitReader s with
  | some why =>
    have hrefused : step (s.withResetPending false) = .refused why :=
      step_walk_refused (s := s.withResetPending false) rfl hport hwalk hadm
    exact absurd (hrefused.symm.trans hrun) (refused_ne_next why u)
  | none =>
    by_cases hcut : readerAvail s < declaredLength (s.mem.readByte s.reader.begin_)
    · rw [step_of_resetPending hreset, stepReset, fetch_walk hport hwalk, fetchChunk_cutShort hadm hcut]
    · have hfit : chunkLength i ≤ readerAvail s := by omega
      have hexec : exec i (s.withResetPending false) = .next u :=
        (step_walk_run (s := s.withResetPending false) rfl hport hwalk hadm h hfit).symm.trans hrun
      rw [exec_chunk i h.1] at hexec
      obtain ⟨t, ht⟩ := readChunk_completes hexec
      have hfetch : fetch s = .run i s := (fetch_walk hport hwalk).trans (fetchChunk_of_holdsChunk hadm h hfit)
      rw [step_reset_run hreset hfetch ((exec_chunk i h.1 s).trans ht), cutEffect_of_not_enc (isEnc_of_isChunk h.1)]

/-! ## The statements -/

/-- Settles O57: the `ENC` is admitted, so it would have completed, and cut off it leaves nine fresh draws in its
window. -/
theorem resetCutsOffAnEnc : Obligations.ResetCutsOffAnEnc := by
  intro s w ws v dest hreset hport hdec hadm
  have hexec : exec (.enc v dest) (s.withPort ws) = .next (encAfter (s.withPort ws) v dest) :=
    execEnc_of_admitted (s := s.withPort ws) hadm v
  refine ⟨_, step_reset_run hreset (fetch_command hport hdec) hexec, rfl, fun n hn => ?_, fun x hx => ?_⟩
  · exact readByte_writeAnys_inside s.mem dest 9 s.draws n hn
  · exact readByte_writeAnys_outside s.mem dest 9 s.draws hx

/-- Settles O58: what is cut off is a decoder, which leaves nothing, or a chunk form, or the read of a cut chunk. -/
theorem resetCutsOffADecoder : Obligations.ResetCutsOffADecoder := by
  refine ⟨fun s u w ws i hreset hport hdec hi hexec => ?_, fun s u hreset hport hwalking hlt hrun => ?_⟩
  · rw [step_reset_run hreset (fetch_command hport hdec) hexec, cutEffect_of_not_enc hi]
    rfl
  · exact step_reset_walk hreset hport ((walkGoesOn_iff s).2 ⟨hwalking, hlt⟩) hrun

end Sys2Proof.Machine
end
